-- ==== Sys2Proof/Word.lean ====
section
/-! DEFINITION. The widths the spec gives values (00_scope.md R6, R8): every value is unsigned, bit 0 is the least
significant bit, and the only widening is with zero bits (R9). -/

namespace Sys2Proof

/-- A memory byte, a V register, a timer, an 8-bit immediate `nn` (R6, R91). -/
abbrev Byte := BitVec 8

/-- An instruction word, PC, I or a return address: 16 bits (R22, R23, R25, R90). -/
abbrev Word := BitVec 16

/-- A 4-bit field of an instruction word (R91). -/
abbrev Nibble := BitVec 4

/-- A register index: `x` or `y` selects one of V0 to VF (R20, R91). -/
abbrev Reg := BitVec 4

/-- A key code, 0x0 to 0xF (R29, R237). -/
abbrev Key := BitVec 4

/-- The 12-bit address immediate `nnn` (R91). -/
abbrev Addr12 := BitVec 12

end Sys2Proof
end

