-- ==== Sys2Proof/Config.lean ====
section
/-! DEFINITION. The fixed parameters of 00_scope.md R6, the FONT table (R7, 20_memory.md R62), and the free values:
the random byte (R7, R171, R243) and what a fault leaves in the faulting operation's write set (60_exceptions.md R269).
A free value is a constant with no body: no proof can see what it is. -/

namespace Sys2Proof

/-- `MEM_SIZE` (R6): addresses 0x000 to 0xFFF. -/
def Config.memSize : Nat := 4096

/-- `ROM_BASE` (R6): where a program is loaded and where PC starts. -/
def Config.romBase : Nat := 0x200

/-- `MAX_PROGRAM` (R6): the bytes from `ROM_BASE` to the end of memory. -/
def Config.maxProgram : Nat := 3584

/-- `FONT_BYTES` (R6). -/
def Config.fontBytes : Nat := 80

/-- `DISP_ROWS` (R6). -/
abbrev Config.dispRows : Nat := 32

/-- `DISP_COLS` (R6). -/
abbrev Config.dispCols : Nat := 64

/-- `STACK_DEPTH` (R6). -/
abbrev Config.stackDepth : Nat := 16

/-- The open parameter `FONT` at the default value of 20_memory.md R62, one glyph of five bytes a row, top row first.
PRESUMED (unsafe, log entry 3): glyph 0 is the source's; R62 itself marks glyphs 1 to F as general knowledge. -/
def Config.glyphs : List (List Byte) :=
  [ [0xF0, 0x90, 0x90, 0x90, 0xF0],   -- 0
    [0x20, 0x60, 0x20, 0x20, 0x70],   -- 1
    [0xF0, 0x10, 0xF0, 0x80, 0xF0],   -- 2
    [0xF0, 0x10, 0xF0, 0x10, 0xF0],   -- 3
    [0x90, 0x90, 0xF0, 0x10, 0x10],   -- 4
    [0xF0, 0x80, 0xF0, 0x10, 0xF0],   -- 5
    [0xF0, 0x80, 0xF0, 0x90, 0xF0],   -- 6
    [0xF0, 0x10, 0x20, 0x40, 0x40],   -- 7
    [0xF0, 0x90, 0xF0, 0x90, 0xF0],   -- 8
    [0xF0, 0x90, 0xF0, 0x10, 0xF0],   -- 9
    [0xF0, 0x90, 0xF0, 0x90, 0x90],   -- A
    [0xE0, 0x90, 0xE0, 0x90, 0xE0],   -- B
    [0xF0, 0x80, 0x80, 0x80, 0xF0],   -- C
    [0xE0, 0x90, 0x90, 0x90, 0xE0],   -- D
    [0xF0, 0x80, 0xF0, 0x80, 0xF0],   -- E
    [0xF0, 0x80, 0xF0, 0x80, 0x80] ]  -- F

/-- The 80 font bytes in address order: glyph `d` at `5 * d` (R62). -/
def Config.font : List Byte := Config.glyphs.flatten

/-- An element of a faulting operation's write set (R269): what the operation's pseudocode assigns. -/
inductive WriteSetElement where
  | pc                      -- the program counter
  | reg (x : Reg)           -- a V register
  | mem (a : Nat)           -- a memory byte
  | pixel (r c : Nat)       -- a display pixel
  | collision               -- whether the interrupted draw had met its collision before it stopped
  deriving DecidableEq, Repr

/-- FREE VALUE (safe, log entry 1): the byte the environment supplies to the `k`-th draw; no law holds of it
(42_arith_logic.md R171, 46_host_operations.md R243). -/
opaque Config.rnd : Nat → Byte

/-- FREE VALUE (safe, log entry 2): whether an element of the write set kept its old value at a fault; otherwise it
holds what a partial execution of the pseudocode gave it (60_exceptions.md R269). `k` is the draw's number. -/
opaque Config.keepsOld : (k : Nat) → WriteSetElement → Bool

end Sys2Proof
end

