-- ==== Sys2Proof/Syntax.lean ====
section
/-! DEFINITION. The 34 instructions of 30_encoding.md R95, one constructor per row of the opcode map, in its order. Every
field is the bits the word has (R91), so that the bounds of R93 are in the types. -/

namespace Sys2Proof

/-- The instruction set (R95). The ignored nibble `op[11:8]` of `CLS` and `RET` and the unused `y` of the shifts (R101) are
kept: they change no behaviour, but a fault record holds the word as it was fetched (R261). DESIGN CHOICE (safe, log
entry 11). -/
inductive Instr where
  | cls (u : Nibble)                    -- 0-E0  CLS
  | ret (u : Nibble)                    -- 0-EE  RET
  | jp (nnn : Addr12)                   -- 1nnn  JP nnn
  | call (nnn : Addr12)                 -- 2nnn  CALL nnn
  | seImm (x : Reg) (nn : Byte)         -- 3xnn  SE Vx, nn
  | sneImm (x : Reg) (nn : Byte)        -- 4xnn  SNE Vx, nn
  | seReg (x y : Reg)                   -- 5xy0  SE Vx, Vy
  | ldImm (x : Reg) (nn : Byte)         -- 6xnn  LD Vx, nn
  | addImm (x : Reg) (nn : Byte)        -- 7xnn  ADD Vx, nn
  | ldReg (x y : Reg)                   -- 8xy0  LD Vx, Vy
  | orReg (x y : Reg)                   -- 8xy1  OR Vx, Vy
  | andReg (x y : Reg)                  -- 8xy2  AND Vx, Vy
  | xorReg (x y : Reg)                  -- 8xy3  XOR Vx, Vy
  | addReg (x y : Reg)                  -- 8xy4  ADD Vx, Vy
  | subReg (x y : Reg)                  -- 8xy5  SUB Vx, Vy
  | shr (x y : Reg)                     -- 8xy6  SHR Vx, with y unused
  | subn (x y : Reg)                    -- 8xy7  SUBN Vx, Vy
  | shl (x y : Reg)                     -- 8xyE  SHL Vx, with y unused
  | sneReg (x y : Reg)                  -- 9xy0  SNE Vx, Vy
  | ldI (nnn : Addr12)                  -- Annn  LD I, nnn
  | jpV0 (nnn : Addr12)                 -- Bnnn  JP V0, nnn
  | rnd (x : Reg) (nn : Byte)           -- Cxnn  RND Vx, nn
  | drw (x y : Reg) (n : Nibble)        -- Dxyn  DRW Vx, Vy, n
  | skp (x : Reg)                       -- Ex9E  SKP Vx
  | sknp (x : Reg)                      -- ExA1  SKNP Vx
  | ldVxDt (x : Reg)                    -- Fx07  LD Vx, DT
  | ldVxK (x : Reg)                     -- Fx0A  LD Vx, K
  | ldDtVx (x : Reg)                    -- Fx15  LD DT, Vx
  | ldStVx (x : Reg)                    -- Fx18  LD ST, Vx
  | addIVx (x : Reg)                    -- Fx1E  ADD I, Vx
  | ldFVx (x : Reg)                     -- Fx29  LD F, Vx
  | ldBVx (x : Reg)                     -- Fx33  LD B, Vx
  | ldMemVx (x : Reg)                   -- Fx55  LD [I], Vx
  | ldVxMem (x : Reg)                   -- Fx65  LD Vx, [I]
  deriving DecidableEq, Repr

end Sys2Proof
end

