-- ==== Sys2Proof/WellFormed.lean ====
section
/-! DEFINITION. What is well formed. A term of `Instr` needs no check: the bounds of R91 are in the types of its fields, so
every term is one of the hardware's instructions. What the spec leaves to check is a WORD (is it in the opcode map of
30_encoding.md R95, or illegal, R97), the SPELLING of an instruction (R101: the one an assembler emits), and the IMAGE a
host loads (46_host_operations.md R239, R247). -/

namespace Sys2Proof

/-- One row of the opcode map (R95): a word is selected iff `op AND mask = bits`. -/
structure OpcodeRow where
  mnemonic : String
  mask     : Word
  bits     : Word
  deriving DecidableEq, Repr

/-- Does the row select the word (R95)? -/
def OpcodeRow.selects (r : OpcodeRow) (op : Word) : Bool := op &&& r.mask == r.bits

/-- Rows 1 to 9 of the opcode map (R95). -/
def opcodeRowsSingle : List OpcodeRow :=
  [ ⟨"CLS", 0xF0FF, 0x00E0⟩, ⟨"RET", 0xF0FF, 0x00EE⟩, ⟨"JP nnn", 0xF000, 0x1000⟩, ⟨"CALL nnn", 0xF000, 0x2000⟩,
    ⟨"SE Vx, nn", 0xF000, 0x3000⟩, ⟨"SNE Vx, nn", 0xF000, 0x4000⟩, ⟨"SE Vx, Vy", 0xF00F, 0x5000⟩,
    ⟨"LD Vx, nn", 0xF000, 0x6000⟩, ⟨"ADD Vx, nn", 0xF000, 0x7000⟩ ]

/-- Rows 10 to 23 of the opcode map (R95). -/
def opcodeRowsMiddle : List OpcodeRow :=
  [ ⟨"LD Vx, Vy", 0xF00F, 0x8000⟩, ⟨"OR Vx, Vy", 0xF00F, 0x8001⟩, ⟨"AND Vx, Vy", 0xF00F, 0x8002⟩,
    ⟨"XOR Vx, Vy", 0xF00F, 0x8003⟩, ⟨"ADD Vx, Vy", 0xF00F, 0x8004⟩, ⟨"SUB Vx, Vy", 0xF00F, 0x8005⟩,
    ⟨"SHR Vx", 0xF00F, 0x8006⟩, ⟨"SUBN Vx, Vy", 0xF00F, 0x8007⟩, ⟨"SHL Vx", 0xF00F, 0x800E⟩,
    ⟨"SNE Vx, Vy", 0xF00F, 0x9000⟩, ⟨"LD I, nnn", 0xF000, 0xA000⟩, ⟨"JP V0, nnn", 0xF000, 0xB000⟩,
    ⟨"RND Vx, nn", 0xF000, 0xC000⟩, ⟨"DRW Vx, Vy, n", 0xF000, 0xD000⟩ ]

/-- Rows 24 to 34 of the opcode map (R95). -/
def opcodeRowsByte : List OpcodeRow :=
  [ ⟨"SKP Vx", 0xF0FF, 0xE09E⟩, ⟨"SKNP Vx", 0xF0FF, 0xE0A1⟩, ⟨"LD Vx, DT", 0xF0FF, 0xF007⟩,
    ⟨"LD Vx, K", 0xF0FF, 0xF00A⟩, ⟨"LD DT, Vx", 0xF0FF, 0xF015⟩, ⟨"LD ST, Vx", 0xF0FF, 0xF018⟩,
    ⟨"ADD I, Vx", 0xF0FF, 0xF01E⟩, ⟨"LD F, Vx", 0xF0FF, 0xF029⟩, ⟨"LD B, Vx", 0xF0FF, 0xF033⟩,
    ⟨"LD [I], Vx", 0xF0FF, 0xF055⟩, ⟨"LD Vx, [I]", 0xF0FF, 0xF065⟩ ]

/-- The opcode map of R95: 34 rows. UNVERIFIED (unsafe, log entry 7): its numbers are the spec's decision D18. -/
def opcodeMap : List OpcodeRow := opcodeRowsSingle ++ opcodeRowsMiddle ++ opcodeRowsByte

/-- A word is legal iff some row of the opcode map selects it; every other word is an undefined instruction (R97). -/
def legalWord (op : Word) : Bool := opcodeMap.any (·.selects op)

/-- The canonical spelling, the only one an assembler emits (R101): the ignored nibble of `CLS` and `RET` is 0, and the
unused `y` of a shift is 0 or `x`. The machine accepts every spelling. -/
def Instr.canonical : Instr → Bool
  | .cls u | .ret u => u == 0
  | .shr x y | .shl x y => y == 0 || y == x
  | _ => true

/-- An image a host may load without a fault: it fits between `ROM_BASE` and the end of memory (R239, R247). -/
def loadableImage (bytes : List Byte) : Bool := bytes.length ≤ Config.maxProgram

end Sys2Proof
end

