-- ==== Sys2Proof/Decode.lean ====
section
/-! DEFINITION. Decoding (30_encoding.md R91 to R94, R97), written from the selection rule of R94: the high nibble selects
a family; families 0, E, F select by the low byte, families 5, 8, 9 by the low nibble, every other family has one handler.
After it the encoder, from the patterns of R95 and the formats of R92, and the host's `decodeTableWord`. -/

namespace Sys2Proof

/-- Why no instruction was read. -/
inductive DecodeError where
  /-- The word has no handler: an undefined instruction (R94, R97). -/
  | undefinedInstruction (op : Word)
  /-- Fewer than the two bytes every instruction has (R90). -/
  | truncated
  deriving DecidableEq, Repr

/-- What decoding answers: an instruction or the reason there is none. -/
inductive Decoded where
  | instr (i : Instr)
  | error (e : DecodeError)
  deriving DecidableEq, Repr

/-- The family, `op[15:12]` (R91). -/
def famOf (op : Word) : Nibble := op.extractLsb' 12 4

/-- The field `x`, `op[11:8]` (R91). -/
def xOf (op : Word) : Reg := op.extractLsb' 8 4

/-- The field `y`, `op[7:4]` (R91). -/
def yOf (op : Word) : Reg := op.extractLsb' 4 4

/-- The field `n`, `op[3:0]` (R91). -/
def nOf (op : Word) : Nibble := op.extractLsb' 0 4

/-- The field `nn`, `op[7:0]` (R91). -/
def nnOf (op : Word) : Byte := op.extractLsb' 0 8

/-- The field `nnn`, `op[11:0]` (R91). -/
def nnnOf (op : Word) : Addr12 := op.extractLsb' 0 12

/-- Family 0 selects by the low byte; `op[11:8]` takes no part (R94, R101). -/
def handler0 (op : Word) : Option Instr :=
  if nnOf op = 0xE0 then some (.cls (xOf op))
  else if nnOf op = 0xEE then some (.ret (xOf op))
  else none

/-- Family 5 selects by the low nibble (R94). -/
def handler5 (op : Word) : Option Instr :=
  if nOf op = 0x0 then some (.seReg (xOf op) (yOf op)) else none

/-- Family 8 selects by the low nibble (R94). -/
def handler8 (op : Word) : Option Instr :=
  if nOf op = 0x0 then some (.ldReg (xOf op) (yOf op))
  else if nOf op = 0x1 then some (.orReg (xOf op) (yOf op))
  else if nOf op = 0x2 then some (.andReg (xOf op) (yOf op))
  else if nOf op = 0x3 then some (.xorReg (xOf op) (yOf op))
  else if nOf op = 0x4 then some (.addReg (xOf op) (yOf op))
  else if nOf op = 0x5 then some (.subReg (xOf op) (yOf op))
  else if nOf op = 0x6 then some (.shr (xOf op) (yOf op))
  else if nOf op = 0x7 then some (.subn (xOf op) (yOf op))
  else if nOf op = 0xE then some (.shl (xOf op) (yOf op))
  else none

/-- Family 9 selects by the low nibble (R94). -/
def handler9 (op : Word) : Option Instr :=
  if nOf op = 0x0 then some (.sneReg (xOf op) (yOf op)) else none

/-- Family E selects by the low byte (R94). -/
def handlerE (op : Word) : Option Instr :=
  if nnOf op = 0x9E then some (.skp (xOf op))
  else if nnOf op = 0xA1 then some (.sknp (xOf op))
  else none

/-- Family F selects by the low byte (R94). -/
def handlerF (op : Word) : Option Instr :=
  if nnOf op = 0x07 then some (.ldVxDt (xOf op))
  else if nnOf op = 0x0A then some (.ldVxK (xOf op))
  else if nnOf op = 0x15 then some (.ldDtVx (xOf op))
  else if nnOf op = 0x18 then some (.ldStVx (xOf op))
  else if nnOf op = 0x1E then some (.addIVx (xOf op))
  else if nnOf op = 0x29 then some (.ldFVx (xOf op))
  else if nnOf op = 0x33 then some (.ldBVx (xOf op))
  else if nnOf op = 0x55 then some (.ldMemVx (xOf op))
  else if nnOf op = 0x65 then some (.ldVxMem (xOf op))
  else none

/-- The handler a word selects, if any (R94). The sixteen families are all the values the high nibble has. -/
def handlerOf (op : Word) : Option Instr :=
  if famOf op = 0x0 then handler0 op
  else if famOf op = 0x1 then some (.jp (nnnOf op))
  else if famOf op = 0x2 then some (.call (nnnOf op))
  else if famOf op = 0x3 then some (.seImm (xOf op) (nnOf op))
  else if famOf op = 0x4 then some (.sneImm (xOf op) (nnOf op))
  else if famOf op = 0x5 then handler5 op
  else if famOf op = 0x6 then some (.ldImm (xOf op) (nnOf op))
  else if famOf op = 0x7 then some (.addImm (xOf op) (nnOf op))
  else if famOf op = 0x8 then handler8 op
  else if famOf op = 0x9 then handler9 op
  else if famOf op = 0xA then some (.ldI (nnnOf op))
  else if famOf op = 0xB then some (.jpV0 (nnnOf op))
  else if famOf op = 0xC then some (.rnd (xOf op) (nnOf op))
  else if famOf op = 0xD then some (.drw (xOf op) (yOf op) (nOf op))
  else if famOf op = 0xE then handlerE op
  else handlerF op

/-- Decode a word: exactly one handler, or an undefined instruction (R94, R125). A function of the word alone. -/
def decodeWord (op : Word) : Decoded :=
  match handlerOf op with
  | some i => .instr i
  | none => .error (.undefinedInstruction op)

/-- The word two bytes make, big-endian: the byte at the lower address is `op[15:8]` (20_memory.md R63, R90). -/
def wordOfBytes (hi lo : Byte) : Word := hi ++ lo

/-- Decode the bytes at the program counter, lower address first. Every instruction is two bytes long (R90, R102); what
follows them is not looked at. -/
def decode : List Byte → Decoded
  | hi :: lo :: _ => decodeWord (wordOfBytes hi lo)
  | _ => .error .truncated

/-- A word of format `NNN` (R92). -/
def wordNNN (fam : Nibble) (nnn : Addr12) : Word := fam ++ nnn

/-- A word of format `XNN` or `XSS`, or of `NONE` with its ignored nibble in `x`'s place (R92). -/
def wordXNN (fam : Nibble) (x : Nibble) (nn : Byte) : Word := fam ++ (x ++ nn : BitVec 12)

/-- A word of format `XYN` (R92). -/
def wordXYN (fam : Nibble) (x y n : Nibble) : Word := fam ++ (x ++ (y ++ n : BitVec 8) : BitVec 12)

/-- The word of an instruction (R92, R95). -/
def encode : Instr → Word
  | .cls u => wordXNN 0x0 u 0xE0
  | .ret u => wordXNN 0x0 u 0xEE
  | .jp nnn => wordNNN 0x1 nnn
  | .call nnn => wordNNN 0x2 nnn
  | .seImm x nn => wordXNN 0x3 x nn
  | .sneImm x nn => wordXNN 0x4 x nn
  | .seReg x y => wordXYN 0x5 x y 0x0
  | .ldImm x nn => wordXNN 0x6 x nn
  | .addImm x nn => wordXNN 0x7 x nn
  | .ldReg x y => wordXYN 0x8 x y 0x0
  | .orReg x y => wordXYN 0x8 x y 0x1
  | .andReg x y => wordXYN 0x8 x y 0x2
  | .xorReg x y => wordXYN 0x8 x y 0x3
  | .addReg x y => wordXYN 0x8 x y 0x4
  | .subReg x y => wordXYN 0x8 x y 0x5
  | .shr x y => wordXYN 0x8 x y 0x6
  | .subn x y => wordXYN 0x8 x y 0x7
  | .shl x y => wordXYN 0x8 x y 0xE
  | .sneReg x y => wordXYN 0x9 x y 0x0
  | .ldI nnn => wordNNN 0xA nnn
  | .jpV0 nnn => wordNNN 0xB nnn
  | .rnd x nn => wordXNN 0xC x nn
  | .drw x y n => wordXYN 0xD x y n
  | .skp x => wordXNN 0xE x 0x9E
  | .sknp x => wordXNN 0xE x 0xA1
  | .ldVxDt x => wordXNN 0xF x 0x07
  | .ldVxK x => wordXNN 0xF x 0x0A
  | .ldDtVx x => wordXNN 0xF x 0x15
  | .ldStVx x => wordXNN 0xF x 0x18
  | .addIVx x => wordXNN 0xF x 0x1E
  | .ldFVx x => wordXNN 0xF x 0x29
  | .ldBVx x => wordXNN 0xF x 0x33
  | .ldMemVx x => wordXNN 0xF x 0x55
  | .ldVxMem x => wordXNN 0xF x 0x65

/-- The byte of a word at the lower address, `op[15:8]` (R63). -/
def highByte (op : Word) : Byte := op.extractLsb' 8 8

/-- The byte of a word at the higher address, `op[7:0]` (R63). -/
def lowByte (op : Word) : Byte := op.extractLsb' 0 8

/-- The instruction an instruction decoded to, or none. -/
def Decoded.toOption : Decoded → Option Instr
  | .instr i => some i
  | .error _ => none

/-- The 16-bit word with the low `nbits` bits of `w`, every higher bit 0 (the host's numbering: bit 0 is the word's least
significant bit). -/
def tableWord (nbits w : Nat) : Word := BitVec.ofNat 16 (w % 2 ^ nbits)

/-- What the decoder reads from the instruction whose low `nbits` bits are `w`, laid out in memory high byte first (R63). -/
def decodeTableWord (nbits w : Nat) : Option Instr :=
  let op := tableWord nbits w
  (decode [highByte op, lowByte op]).toOption

end Sys2Proof
end

