-- ==== Sys2Proof/Machine/Flags.lean ====
section
/-! DEFINITION. Every flag computation of the spec (10_state.md R21, 42_arith_logic.md R172): a flag is a Bool until it is
written to VF as 0x00 or 0x01, all eight bits of it. -/

namespace Sys2Proof.Machine

/-- What a flag writes into VF: "fully overwritten, never merged" (R21). -/
def flagByte (f : Bool) : Byte := if f then 1 else 0

/-- The carry of an addition: the exact sum exceeds 255 (R166, R172). -/
def carryOf (a b : Byte) : Bool := 255 < a.toNat + b.toNat

/-- The not-borrow of `a - b`: no borrow occurs, equality included (R167, R168, R172). -/
def notBorrowOf (a b : Byte) : Bool := b.toNat ≤ a.toNat

/-- The bit a right shift by one moves out, `a[0]` (R169). -/
def shiftOutRight (a : Byte) : Bool := a.getLsbD 0

/-- The bit a left shift by one moves out, `a[7]` (R170). -/
def shiftOutLeft (a : Byte) : Bool := a.getLsbD 7

end Sys2Proof.Machine
end

