-- ==== Sys2Proof/Machine/Operands.lean ====
section
/-! DEFINITION. What the instructions compute from their operands (30_encoding.md R93): widening with zero bits, exact
integer arithmetic narrowed at the end (00_scope.md R9). -/

namespace Sys2Proof.Machine

/-- `zext_16` (R9). -/
def zext16 {w : Nat} (v : BitVec w) : Word := v.setWidth 16

/-- `zext_8` of a key code (R237). -/
def zext8 (k : Key) : Byte := k.setWidth 8

/-- The sum of two bytes modulo 256 (R161, R166, R172). -/
def addBytes (a b : Byte) : Byte := BitVec.ofNat 8 (a.toNat + b.toNat)

/-- The difference `a - b` modulo 256 (R167, R168, R172). -/
def subBytes (a b : Byte) : Byte := BitVec.ofInt 8 ((a.toNat : Int) - (b.toNat : Int))

/-- A byte shifted right by one, bit 7 of the result 0 (R169). -/
def shiftRight1 (a : Byte) : Byte := BitVec.ofNat 8 (a.toNat / 2)

/-- A byte shifted left by one, modulo 256 (R170). -/
def shiftLeft1 (a : Byte) : Byte := BitVec.ofNat 8 (a.toNat * 2)

/-- The target of `JP V0, nnn`: the sum is not reduced modulo 4096 (R144). -/
def offsetTarget (v0 : Byte) (nnn : Addr12) : Word := BitVec.ofNat 16 (v0.toNat + nnn.toNat)

/-- `I` plus a register, modulo 65536 (R201). -/
def indexSum (i : Word) (b : Byte) : Word := BitVec.ofNat 16 (i.toNat + b.toNat)

/-- The address of the font glyph of a digit: the whole byte times 5, no mask (R202). -/
def glyphAddr (b : Byte) : Word := BitVec.ofNat 16 (b.toNat * 5)

/-- The three decimal digits of a byte, hundreds first (R203). -/
def bcdDigits (b : Byte) : List Byte :=
  [BitVec.ofNat 8 (b.toNat / 100), BitVec.ofNat 8 (b.toNat / 10 % 10), BitVec.ofNat 8 (b.toNat % 10)]

/-- A timer after one tick: down by 1 while positive, never below 0 (46_host_operations.md R236). -/
def tickDown (t : Byte) : Byte := BitVec.ofNat 8 (t.toNat - 1)

end Sys2Proof.Machine
end

