-- ==== Sys2Proof/Machine/Display.lean ====
section
/-! DEFINITION. The 32 x 64 display buffer (10_state.md R28) and the drawing of a sprite on it, as the pseudocode of
43_display.md R190 writes it. -/

namespace Sys2Proof.Machine

/-- `disp[r][c]`: 32 rows of 64 one-bit pixels, row 0 on top, column 0 leftmost (R28). -/
abbrev Display := Vector (Vector Bool Config.dispCols) Config.dispRows

/-- The display with every pixel 0 (R40, R140). -/
def Display.blank : Display := Vector.replicate Config.dispRows (Vector.replicate Config.dispCols false)

/-- The row a vertical coordinate falls on, wrapped (R190). -/
def wrapRow (r : Nat) : Fin Config.dispRows := ⟨r % Config.dispRows, Nat.mod_lt _ (by decide)⟩

/-- The column a horizontal coordinate falls on, wrapped (R190). -/
def wrapCol (c : Nat) : Fin Config.dispCols := ⟨c % Config.dispCols, Nat.mod_lt _ (by decide)⟩

/-- The pixel at a row and a column. -/
def Display.pixel (d : Display) (r : Fin Config.dispRows) (c : Fin Config.dispCols) : Bool := d[r][c]

/-- The display with one pixel replaced. -/
def Display.setPixel (d : Display) (r : Fin Config.dispRows) (c : Fin Config.dispCols) (b : Bool) : Display :=
  d.set r (d[r].set c b)

/-- The display and the collision flag while a sprite is drawn. -/
structure Drawing where
  disp : Display
  hit  : Bool
  deriving DecidableEq, Repr

/-- One bit of a sprite byte (R190): most significant bit first; the collision is sticky; the pixel is XORed. -/
def drawBit (vx vy row : Nat) (b : Byte) (g : Drawing) (col : Nat) : Drawing :=
  let bit := b.getLsbD (7 - col)
  let r := wrapRow (vy + row)
  let c := wrapCol (vx + col)
  let old := g.disp.pixel r c
  { disp := g.disp.setPixel r c (old ^^ bit), hit := g.hit || (bit && old) }

/-- The eight bits of one sprite byte (R190). -/
def drawRow (vx vy row : Nat) (b : Byte) (g : Drawing) : Drawing :=
  (List.range 8).foldl (drawBit vx vy row b) g

/-- The sprite bytes in turn, from sprite row `row` on (R190). -/
def drawRows (vx vy : Nat) : Nat → List Byte → Drawing → Drawing
  | _, [], g => g
  | row, b :: bs, g => drawRows vx vy (row + 1) bs (drawRow vx vy row b g)

/-- Draw a sprite: the collision flag is reset before drawing (R190). -/
def drawSprite (vx vy : Nat) (bytes : List Byte) (d : Display) : Drawing :=
  drawRows vx vy 0 bytes { disp := d, hit := false }

/-- What a draw that faulted leaves (60_exceptions.md R269): each pixel holds its old value where `keep` says so, and
what the rows drawn before the fault made of it otherwise. -/
def Display.mergeKept (keep : Nat → Nat → Bool) (old drawn : Display) : Display :=
  Vector.ofFn fun r => Vector.ofFn fun c =>
    if keep r.val c.val then old.pixel r c else drawn.pixel r c

end Sys2Proof.Machine
end

