-- ==== Sys2Proof/Machine/Memory.lean ====
section
/-! DEFINITION. The 4096-byte memory (20_memory.md R60 to R62), as the list of the cells that differ from what power-on
leaves (10_state.md R40), addresses strictly rising. The operations here are unchecked: the bound of R66 and R67 is tested
by the operations of Ops.lean before they call these. -/

namespace Sys2Proof.Machine

/-- Memory: the cells that differ from the power-on contents, in canonical form (`Memory.wf`). -/
abbrev Memory := List Host.Cell

/-- What an unlisted address reads as, the contents after power-on (R40, R61): the font at 0x000 to 0x04F, 0x00 above. -/
def powerOnByte (a : Nat) : Byte := Config.font.getD a 0

/-- Is `a` an address of the memory (R60)? An access to any other faults (R66; UNVERIFIED, safe, log entry 16). -/
def addrInRange (a : Nat) : Bool := a < Config.memSize

/-- A block of `n` bytes at `a` lies in range iff every one of its addresses does; an empty block always does (R66; R191
item 3). The sum is not wrapped. -/
def blockInRange (a n : Nat) : Bool := n == 0 || a + n ≤ Config.memSize

/-- How many bytes of the block of `n` bytes at `a` lie in range: its first ones. -/
def inRangeCount (a n : Nat) : Nat := min n (Config.memSize - a)

/-- Put a cell before the rest, unless it holds what an unlisted address reads as. -/
def putCell (a : Nat) (b : Byte) (rest : Memory) : Memory :=
  if b = powerOnByte a then rest else (a, b) :: rest

/-- The byte at an address (R9's `mem[a]`). -/
def Memory.read : Memory → Nat → Byte
  | [], a => powerOnByte a
  | (k, v) :: rest, a => if a = k then v else Memory.read rest a

/-- Write a byte at an address, keeping the canonical form. -/
def Memory.write : Memory → Nat → Byte → Memory
  | [], a, b => putCell a b []
  | (k, v) :: rest, a, b =>
    if a < k then putCell a b ((k, v) :: rest)
    else if a = k then putCell a b rest
    else (k, v) :: Memory.write rest a b

/-- Write consecutive bytes from `a` upward (R65: one after the other). -/
def Memory.writeBytes : Memory → Nat → List Byte → Memory
  | m, _, [] => m
  | m, a, b :: bs => Memory.writeBytes (Memory.write m a b) (a + 1) bs

/-- What a block store that faulted leaves (60_exceptions.md R269): each byte of its write set that is in range holds its
old value where `keep` says so, and the byte stored there otherwise. -/
def Memory.writeSome (keep : Nat → Bool) : Memory → Nat → List Byte → Memory
  | m, _, [] => m
  | m, a, b :: bs =>
    Memory.writeSome keep (if addrInRange a && !keep a then Memory.write m a b else m) (a + 1) bs

/-- The `n` bytes from `a` upward. -/
def Memory.readBytes (m : Memory) (a : Nat) : Nat → List Byte
  | 0 => []
  | n + 1 => Memory.read m a :: Memory.readBytes m (a + 1) n

/-- The canonical form from address `lo` on: addresses strictly rising and below 4096, no cell that holds what an unlisted
address reads as. -/
def Memory.wfFrom (lo : Nat) : Memory → Bool
  | [] => true
  | (k, v) :: rest =>
    decide (lo ≤ k) && addrInRange k && decide (v ≠ powerOnByte k) && Memory.wfFrom (k + 1) rest

/-- The canonical form of a memory. -/
def Memory.wf (m : Memory) : Bool := Memory.wfFrom 0 m

end Sys2Proof.Machine
end

