-- ==== Sys2Proof/Machine/State.lean ====
section
/-! DEFINITION. The state of the machine (10_state.md R20 to R32), the reasons it can stop, and the state after power-on
(R40). -/

namespace Sys2Proof.Machine

/-- The run state (R30). -/
inductive RunState where
  /-- `step` executes one instruction. -/
  | running
  /-- Held by `LD Vx, K` until a `set_key` event; `x` is the register that takes the key code. -/
  | waitingForKey (x : Reg)
  /-- A fatal condition has been met; every operation but `reset` is ignored. -/
  | faulted
  deriving DecidableEq, Repr

/-- The fatal conditions (60_exceptions.md R261; the codes are UNVERIFIED, log entry 15). -/
inductive FaultCause where
  | none                   -- code 0, the value when not faulted
  | stackUnderflow         -- code 1, RET with sp = 0
  | stackOverflow          -- code 2, CALL with sp = 16
  | undefinedInstruction   -- code 3, a word that matches no row of the opcode map
  | memOutOfBounds         -- code 4, an access above 0xFFF
  | keyIndexRange          -- code 5, SKP or SKNP with V[x] > 15
  | loadTooLarge           -- code 6, load_program with more than 3584 bytes
  deriving DecidableEq, Repr

/-- Everything the spec gives the machine, and `draws`, the model's own. -/
@[ext]
structure State where
  /-- V0 to VF (R20, R21). -/
  v : Vector Byte 16
  /-- I, the index register (R22). -/
  i : Word
  /-- PC (R23). -/
  pc : Word
  /-- SP, the number of saved return addresses, 0 to 16 (R24). -/
  sp : Fin 17
  /-- `stack[0]` to `stack[15]` (R25). -/
  stack : Vector Word Config.stackDepth
  /-- DT, the delay timer (R26). -/
  dt : Byte
  /-- ST, the sound timer (R27). -/
  st : Byte
  /-- The display buffer (R28). -/
  disp : Display
  /-- The key states, true = down (R29). -/
  keys : Vector Bool 16
  /-- The run state (R30). -/
  run : RunState
  /-- Fault record: the cause (R31, R261). -/
  faultCause : FaultCause
  /-- Fault record: the address of the faulting instruction (R31, R268). -/
  faultPc : Word
  /-- Fault record: the faulting word, 0x0000 where none was fetched (R31, R268). -/
  faultOpcode : Word
  /-- The memory (R32). -/
  mem : Memory
  /-- The model's own: how many free values have been taken so far (log entry 1). -/
  draws : Nat
  deriving DecidableEq, Repr

/-- The reasons `step` could end outside the machine's own states: there is none. Every fatal condition of the spec is a
state of the machine (`RunState.faulted` with its record, R268), so nothing raises a `Fault` (log entry 5; safe). -/
inductive Fault
  deriving DecidableEq, Repr

/-- Why an instruction is refused. -/
inductive Refusal where
  /-- Raised by an arm of `exec` whose instruction has no meaning yet (safe). No arm is left that does. -/
  | notModelled (mnemonic : String)
  deriving DecidableEq, Repr

/-- The state after power-on (R40, R290): PC 0x200, RUNNING, the font in memory, everything else zero. The zeros are the
spec's decision D8, named in R40 (log entry 4; unsafe); `draws` is a DESIGN CHOICE (log entry 1). -/
def State.reset : State where
  v := Vector.replicate 16 0
  i := 0
  pc := BitVec.ofNat 16 Config.romBase
  sp := 0
  stack := Vector.replicate Config.stackDepth 0
  dt := 0
  st := 0
  disp := Display.blank
  keys := Vector.replicate 16 false
  run := .running
  faultCause := .none
  faultPc := 0
  faultOpcode := 0
  mem := []
  draws := 0

end Sys2Proof.Machine
end

