-- ==== Sys2Proof/Machine/Ops.lean ====
section
/-! DEFINITION. The named operations over registers, program counter, stack and memory, the fetch, and the taking of a
fault (60_exceptions.md R268, R269). While an instruction fetched at `A` executes, `pc` already holds `A + 2`
(40_step_cycle.md R122, R124): the operations here are written against that value. There is no return from a fault: only
the `reset` operation leaves FAULTED (R270), and it stands in HostOps.lean. -/

namespace Sys2Proof.Machine

/-- The register VF (R21). -/
abbrev regF : Reg := 0xF

/-- Read `V[x]` (R20). -/
def State.getV (s : State) (x : Reg) : Byte := s.v[x.toNat]'x.isLt

/-- Write `V[x]` (R20). -/
def State.setV (s : State) (x : Reg) (b : Byte) : State := { s with v := s.v.set x.toNat b x.isLt }

/-- Write a result and a flag: the result first, the flag last (42_arith_logic.md R173). UNVERIFIED (unsafe, log entry 8)
where `x` is F. -/
def State.setVFlag (s : State) (x : Reg) (b : Byte) (f : Bool) : State := (s.setV x b).setV regF (flagByte f)

/-- Write I (R22). -/
def State.setI (s : State) (w : Word) : State := { s with i := w }

/-- Write the program counter (R23). -/
def State.jump (s : State) (target : Word) : State := { s with pc := target }

/-- The advance after the fetch (R124; log entry 20). -/
def State.advance (s : State) : State := s.jump (s.pc + 2)

/-- A skip adds a further 2 when its condition holds (R145 to R148, R221, R222). -/
def State.skipIf (s : State) (c : Bool) : State := if c then s.jump (s.pc + 2) else s

/-- The key state of key `k` (R29). -/
def State.keyDown (s : State) (k : Key) : Bool := s.keys[k.toNat]'k.isLt

/-- Push the program counter, or nothing when the stack is full (R143). -/
def State.push (s : State) : Option State :=
  if h : s.sp.val < Config.stackDepth then
    some { s with stack := s.stack.set s.sp.val s.pc h, sp := ⟨s.sp.val + 1, Nat.succ_lt_succ h⟩ }
  else none

/-- Pop the program counter, or nothing when the stack is empty; the popped entry stays where it is (R141, R25). -/
def State.pop (s : State) : Option State :=
  if h : 0 < s.sp.val then
    some { s with
      sp := ⟨s.sp.val - 1, Nat.lt_of_le_of_lt (Nat.sub_le _ _) s.sp.isLt⟩
      pc := s.stack[s.sp.val - 1]'(Nat.lt_of_lt_of_le (Nat.sub_one_lt (Nat.ne_of_gt h)) (Nat.le_of_lt_succ s.sp.isLt)) }
  else none

/-- Fault entry (R268): the run state and the fault record. -/
def State.latchFault (s : State) (cause : FaultCause) (a op : Word) : State :=
  { s with run := .faulted, faultCause := cause, faultPc := a, faultOpcode := op }

/-- A fault of the fetch (R123): nothing was written, no word was fetched. -/
def State.fetchFault (s : State) : State := s.latchFault .memOutOfBounds s.pc 0

/-- Does an element of the write set keep its old value at the fault now being taken (R269)? A free choice. -/
def State.keeps (s : State) (e : WriteSetElement) : Bool := Config.keepsOld s.draws e

/-- TAKING A FAULT of an instruction fetched at `A`, with `pc = A + 2` (R268, R269): the record names `A` and the word; `pc`,
which is in the write set, holds `A` or `A + 2`. An operation that leaves partial effects applies them first. -/
def State.raise (s : State) (cause : FaultCause) (op : Word) : State :=
  { s.latchFault cause (s.pc - 2) op with
    pc := if s.keeps .pc then s.pc - 2 else s.pc
    draws := s.draws + 1 }

/-- `MemRead(a, 1)` (20_memory.md R67): nothing when the address is above 0xFFF. -/
def State.memRead (s : State) (a : Nat) : Option Byte := if addrInRange a then some (s.mem.read a) else none

/-- `MemRead(a, 2)`, the instruction fetch at `pc`, big-endian (R63, R67, R122). -/
def State.fetch (s : State) : Option Word :=
  match s.memRead s.pc.toNat, s.memRead (s.pc.toNat + 1) with
  | some hi, some lo => some (wordOfBytes hi lo)
  | _, _ => none

/-- Store a block at I, or take the fault when any address of it is out of range (R66, R203, R204). -/
def State.storeBlock (s : State) (op : Word) (bytes : List Byte) : State :=
  if blockInRange s.i.toNat bytes.length then { s with mem := s.mem.writeBytes s.i.toNat bytes }
  else
    State.raise { s with mem := s.mem.writeSome (fun a => s.keeps (.mem a)) s.i.toNat bytes } .memOutOfBounds op

/-- The bytes of `V[0]` to `V[x]` (R204). -/
def State.regBytes (s : State) (x : Reg) : List Byte :=
  (List.range (x.toNat + 1)).map fun k => s.getV (BitVec.ofNat 4 k)

/-- Load the first `count` registers from the bytes at I, `V[0]` first (R205). -/
def State.loadRegs (s : State) (count : Nat) : State :=
  (List.range count).foldl (fun t k => t.setV (BitVec.ofNat 4 k) (s.mem.read (s.i.toNat + k))) s

/-- What a block load that faulted leaves: each register it could reach holds its old value or its byte (R269). -/
def State.loadSomeRegs (s : State) (count : Nat) : State :=
  { s with v := Vector.ofFn fun k =>
      if s.keeps (.reg (BitVec.ofNat 4 k.val)) then s.v[k]
      else (s.loadRegs (inRangeCount s.i.toNat count)).v[k] }

/-- The drawing of `n` sprite rows from memory at I, at the column and row given (43_display.md R190). -/
def State.drawing (s : State) (vx vy : Byte) (n : Nat) : Drawing :=
  drawSprite vx.toNat vy.toNat (s.mem.readBytes s.i.toNat n) s.disp

/-- Draw a sprite whose rows are all in range: the pixels, and VF = collision (R190). -/
def State.draw (s : State) (vx vy : Byte) (n : Nat) : State :=
  State.setV { s with disp := (s.drawing vx vy n).disp } regF (flagByte (s.drawing vx vy n).hit)

/-- What a draw that faulted leaves: pixels old or drawn by the rows before the fault; VF old, reset, or set by a collision
those rows met (R190, R191 item 11, R269). -/
def State.drawSome (s : State) (vx vy : Byte) (n : Nat) : State :=
  let g := s.drawing vx vy (inRangeCount s.i.toNat n)
  State.setV { s with disp := Display.mergeKept (fun r c => s.keeps (.pixel r c)) s.disp g.disp } regF
    (if s.keeps (.reg regF) then s.getV regF else flagByte (g.hit && !s.keeps .collision))

/-- The byte the environment supplies for this draw, and the machine with the draw taken (R171, R243). -/
def State.nextRnd (s : State) : Byte × State := (Config.rnd s.draws, { s with draws := s.draws + 1 })

end Sys2Proof.Machine
end

