-- ==== Sys2Proof/Machine/ArithLogic.lean ====
section
/-! DEFINITION. The meanings of the arithmetic and logic instructions (42_arith_logic.md R160 to R171). Operands are read
before any write (40_step_cycle.md R129); where result and flag go to one register the flag is written last (R173). -/

namespace Sys2Proof.Machine

/-- `LD Vx, nn` (R160). -/
def execLdImm (x : Reg) (nn : Byte) (s : State) : Host.Outcome State Fault Refusal := .next (s.setV x nn)

/-- `ADD Vx, nn` (R161): no flag. -/
def execAddImm (x : Reg) (nn : Byte) (s : State) : Host.Outcome State Fault Refusal :=
  .next (s.setV x (addBytes (s.getV x) nn))

/-- `LD Vx, Vy` (R162). -/
def execLdReg (x y : Reg) (s : State) : Host.Outcome State Fault Refusal := .next (s.setV x (s.getV y))

/-- `OR Vx, Vy` (R163): VF is not modified. -/
def execOrReg (x y : Reg) (s : State) : Host.Outcome State Fault Refusal := .next (s.setV x (s.getV x ||| s.getV y))

/-- `AND Vx, Vy` (R164): VF is not modified. -/
def execAndReg (x y : Reg) (s : State) : Host.Outcome State Fault Refusal := .next (s.setV x (s.getV x &&& s.getV y))

/-- `XOR Vx, Vy` (R165): VF is not modified. -/
def execXorReg (x y : Reg) (s : State) : Host.Outcome State Fault Refusal := .next (s.setV x (s.getV x ^^^ s.getV y))

/-- `ADD Vx, Vy` (R166): VF = carry. -/
def execAddReg (x y : Reg) (s : State) : Host.Outcome State Fault Refusal :=
  .next (s.setVFlag x (addBytes (s.getV x) (s.getV y)) (carryOf (s.getV x) (s.getV y)))

/-- `SUB Vx, Vy` (R167): VF = not-borrow of `V[x] - V[y]`. -/
def execSubReg (x y : Reg) (s : State) : Host.Outcome State Fault Refusal :=
  .next (s.setVFlag x (subBytes (s.getV x) (s.getV y)) (notBorrowOf (s.getV x) (s.getV y)))

/-- `SUBN Vx, Vy` (R168): VF = not-borrow of `V[y] - V[x]`. -/
def execSubn (x y : Reg) (s : State) : Host.Outcome State Fault Refusal :=
  .next (s.setVFlag x (subBytes (s.getV y) (s.getV x)) (notBorrowOf (s.getV y) (s.getV x)))

/-- `SHR Vx` (R169): `y` is decoded and unused. -/
def execShr (x _y : Reg) (s : State) : Host.Outcome State Fault Refusal :=
  .next (s.setVFlag x (shiftRight1 (s.getV x)) (shiftOutRight (s.getV x)))

/-- `SHL Vx` (R170): `y` is decoded and unused. -/
def execShl (x _y : Reg) (s : State) : Host.Outcome State Fault Refusal :=
  .next (s.setVFlag x (shiftLeft1 (s.getV x)) (shiftOutLeft (s.getV x)))

/-- `RND Vx, nn` (R171): the byte of the draw is a free value (log entry 1). -/
def execRnd (x : Reg) (nn : Byte) (s : State) : Host.Outcome State Fault Refusal :=
  .next (s.nextRnd.2.setV x (s.nextRnd.1 &&& nn))

end Sys2Proof.Machine
end

