-- ==== Sys2Proof/Machine/ControlFlow.lean ====
section
/-! DEFINITION. The meanings of the control-flow instructions (41_control_flow.md R140 to R148). -/

namespace Sys2Proof.Machine

/-- `CLS` (R140). -/
def execCls (s : State) : Host.Outcome State Fault Refusal := .next { s with disp := Display.blank }

/-- `RET` (R141, R262). On the fault `sp` stays (DEDUCED, log entry 2). -/
def execRet (u : Nibble) (s : State) : Host.Outcome State Fault Refusal :=
  match s.pop with
  | some t => .next t
  | none => .next (s.raise .stackUnderflow (encode (.ret u)))

/-- `JP nnn` (R142). -/
def execJp (nnn : Addr12) (s : State) : Host.Outcome State Fault Refusal := .next (s.jump (zext16 nnn))

/-- `CALL nnn` (R143, R263). -/
def execCall (nnn : Addr12) (s : State) : Host.Outcome State Fault Refusal :=
  match s.push with
  | some t => .next (t.jump (zext16 nnn))
  | none => .next (s.raise .stackOverflow (encode (.call nnn)))

/-- `JP V0, nnn` (R144). -/
def execJpV0 (nnn : Addr12) (s : State) : Host.Outcome State Fault Refusal :=
  .next (s.jump (offsetTarget (s.getV 0x0) nnn))

/-- `SE Vx, nn` (R145). -/
def execSeImm (x : Reg) (nn : Byte) (s : State) : Host.Outcome State Fault Refusal :=
  .next (s.skipIf (s.getV x == nn))

/-- `SNE Vx, nn` (R146). -/
def execSneImm (x : Reg) (nn : Byte) (s : State) : Host.Outcome State Fault Refusal :=
  .next (s.skipIf (s.getV x != nn))

/-- `SE Vx, Vy` (R147). -/
def execSeReg (x y : Reg) (s : State) : Host.Outcome State Fault Refusal :=
  .next (s.skipIf (s.getV x == s.getV y))

/-- `SNE Vx, Vy` (R148). -/
def execSneReg (x y : Reg) (s : State) : Host.Outcome State Fault Refusal :=
  .next (s.skipIf (s.getV x != s.getV y))

end Sys2Proof.Machine
end

