-- ==== Sys2Proof/Machine/DrawSprite.lean ====
section
/-! DEFINITION. The meaning of the draw-sprite instruction (43_display.md R190, R191). -/

namespace Sys2Proof.Machine

/-- `DRW Vx, Vy, n` (R190): the coordinates are read before VF is reset (R191 item 9; UNVERIFIED, unsafe, log entry 9 where
`x` or `y` is F); the fault is tested on all rows
before anything is drawn, as R66 allows, and leaves what R269 says. -/
def execDrw (x y : Reg) (n : Nibble) (s : State) : Host.Outcome State Fault Refusal :=
  if blockInRange s.i.toNat n.toNat then .next (s.draw (s.getV x) (s.getV y) n.toNat)
  else .next ((s.drawSome (s.getV x) (s.getV y) n.toNat).raise .memOutOfBounds (encode (.drw x y n)))

end Sys2Proof.Machine
end

