-- ==== Sys2Proof/Machine/Input.lean ====
section
/-! DEFINITION. The meanings of the input instructions (45_input_keywait.md R220 to R224). -/

namespace Sys2Proof.Machine

/-- `LD Vx, K` (R220): enter the key wait; nothing else is written, and `keys` is not looked at. -/
def execLdVxK (x : Reg) (s : State) : Host.Outcome State Fault Refusal := .next { s with run := .waitingForKey x }

/-- The key a value names: none above 15 (R224; UNVERIFIED, log entry 10). -/
def keyOfByte (b : Byte) : Option Key := if b.toNat ≤ 15 then some (b.setWidth 4) else none

/-- `SKP Vx` (R221): KEY_INDEX_RANGE when `V[x] > 15` (R224, R266). -/
def execSkp (x : Reg) (s : State) : Host.Outcome State Fault Refusal :=
  match keyOfByte (s.getV x) with
  | some k => .next (s.skipIf (s.keyDown k))
  | none => .next (s.raise .keyIndexRange (encode (.skp x)))

/-- `SKNP Vx` (R222): KEY_INDEX_RANGE when `V[x] > 15` (R224, R266). -/
def execSknp (x : Reg) (s : State) : Host.Outcome State Fault Refusal :=
  match keyOfByte (s.getV x) with
  | some k => .next (s.skipIf (!s.keyDown k))
  | none => .next (s.raise .keyIndexRange (encode (.sknp x)))

end Sys2Proof.Machine
end

