-- ==== Sys2Proof/Machine/MemoryTimer.lean ====
section
/-! DEFINITION. The meanings of the index, memory-transfer, BCD and timer instructions (44_memory_bcd_timer.md R200 to
R208). None of them changes I but the three that load it. -/

namespace Sys2Proof.Machine

/-- `LD I, nnn` (R200). -/
def execLdI (nnn : Addr12) (s : State) : Host.Outcome State Fault Refusal := .next (s.setI (zext16 nnn))

/-- `ADD I, Vx` (R201): no flag, modulo 65536. UNVERIFIED (unsafe, log entry 17). -/
def execAddIVx (x : Reg) (s : State) : Host.Outcome State Fault Refusal := .next (s.setI (indexSum s.i (s.getV x)))

/-- `LD F, Vx` (R202): no mask. UNVERIFIED (unsafe, log entry 17). -/
def execLdFVx (x : Reg) (s : State) : Host.Outcome State Fault Refusal := .next (s.setI (glyphAddr (s.getV x)))

/-- `LD B, Vx` (R203). -/
def execLdBVx (x : Reg) (s : State) : Host.Outcome State Fault Refusal :=
  .next (s.storeBlock (encode (.ldBVx x)) (bcdDigits (s.getV x)))

/-- `LD [I], Vx` (R204): I is not changed. -/
def execLdMemVx (x : Reg) (s : State) : Host.Outcome State Fault Refusal :=
  .next (s.storeBlock (encode (.ldMemVx x)) (s.regBytes x))

/-- `LD Vx, [I]` (R205): I is not changed. -/
def execLdVxMem (x : Reg) (s : State) : Host.Outcome State Fault Refusal :=
  if blockInRange s.i.toNat (x.toNat + 1) then .next (s.loadRegs (x.toNat + 1))
  else .next ((s.loadSomeRegs (x.toNat + 1)).raise .memOutOfBounds (encode (.ldVxMem x)))

/-- `LD Vx, DT` (R206). -/
def execLdVxDt (x : Reg) (s : State) : Host.Outcome State Fault Refusal := .next (s.setV x s.dt)

/-- `LD DT, Vx` (R207). -/
def execLdDtVx (x : Reg) (s : State) : Host.Outcome State Fault Refusal := .next { s with dt := s.getV x }

/-- `LD ST, Vx` (R208). -/
def execLdStVx (x : Reg) (s : State) : Host.Outcome State Fault Refusal := .next { s with st := s.getV x }

end Sys2Proof.Machine
end

