-- ==== Sys2Proof/Machine/Step.lean ====
section
/-! DEFINITION. The `step` operation (40_step_cycle.md R120 to R126), and the host's way to place one instruction. -/

namespace Sys2Proof.Machine

/-- `step`: ignored while waiting or faulted (R120, R121); otherwise fetch, advance, decode, execute (R122), with the faults
of the fetch and of the decoding taken as R126 orders them. -/
def step (s : State) : Host.Outcome State Fault Refusal :=
  match s.run with
  | .waitingForKey _ => .next s
  | .faulted => .next s
  | .running =>
    match s.fetch with
    | none => .next s.fetchFault
    | some op =>
      match decodeWord op with
      | .instr i => exec i s.advance
      | .error _ => .next (s.advance.raise .undefinedInstruction op)

/-- `s` with the instruction whose low `nbits` bits are `w` stored where `step` fetches next, high byte first (R63). The
fetch needs a running core and an address it can reach: from `State.reset` both stand already and only memory changes
(log entry 6). -/
def State.withFetchWord (s : State) (nbits w : Nat) : State :=
  let a : Word := if s.pc.toNat + 1 < Config.memSize then s.pc else BitVec.ofNat 16 Config.romBase
  { s with
    mem := s.mem.writeBytes a.toNat [highByte (tableWord nbits w), lowByte (tableWord nbits w)]
    pc := a
    run := .running }

end Sys2Proof.Machine
end

