-- ==== Sys2Proof/Machine/HostOps.lean ====
section
/-! DEFINITION. The host operations other than `step` (46_host_operations.md R235 to R239, 70_reset_and_hazards.md R291),
the outputs (R240 to R242), and the six operations together. They are serial and atomic (00_scope.md R11, R244): a run of
the block under its host is a list of operations. -/

namespace Sys2Proof.Machine

/-- `s` unless the core is faulted: every operation but `reset` is ignored in FAULTED (60_exceptions.md R270). UNVERIFIED
(unsafe, log entry 18). -/
def State.unlessFaulted (s t : State) : State := if s.run = .faulted then s else t

/-- `tick_timers` (R236). -/
def State.tickTimers (s : State) : State :=
  s.unlessFaulted { s with dt := tickDown s.dt, st := tickDown s.st }

/-- Record that a key is down or up (R237, R238). -/
def State.putKey (s : State) (k : Key) (down : Bool) : State := { s with keys := s.keys.set k.toNat down k.isLt }

/-- `set_key(k)`, the key-down event (R237): it resolves a key wait, whatever the key's state was. UNVERIFIED (unsafe, log
entry 13). -/
def State.setKey (s : State) (k : Key) : State :=
  s.unlessFaulted
    (match s.run with
     | .waitingForKey x => { (s.putKey k true).setV x (zext8 k) with run := .running }
     | _ => s.putKey k true)

/-- `clear_key(k)`, the key-up event (R238): it never resolves a wait. -/
def State.clearKey (s : State) (k : Key) : State := s.unlessFaulted (s.putKey k false)

/-- `load_program(bytes)` (R239, R267): the image at 0x200 and nothing else, or the fault with memory
unchanged. UNVERIFIED (unsafe, log entry 14). -/
def State.loadProgram (s : State) (bytes : List Byte) : State :=
  s.unlessFaulted
    (if loadableImage bytes then { s with mem := s.mem.writeBytes Config.romBase bytes }
     else s.latchFault .loadTooLarge s.pc 0)

/-- The `reset` operation (R291): power-on values, the font reloaded, the rest of memory and the key states kept
(UNVERIFIED, unsafe, log entry 12). The model's own count of draws goes on, so that later draws are fresh. -/
def State.resetOp (s : State) : State :=
  { State.reset with mem := s.mem.writeBytes 0 Config.font, keys := s.keys, draws := s.draws }

/-- The six operations of the interface (R235). A key code is a 4-bit argument: a code above 15 cannot be presented
(R237, R247). -/
inductive HostOp where
  | reset
  | loadProgram (bytes : List Byte)
  | step
  | tickTimers
  | setKey (k : Key)
  | clearKey (k : Key)
  deriving DecidableEq, Repr

/-- One operation applied to a state (R10, R235). -/
def applyOp (op : HostOp) (s : State) : Host.Outcome State Fault Refusal :=
  match op with
  | .reset => .next s.resetOp
  | .loadProgram bytes => .next (s.loadProgram bytes)
  | .step => step s
  | .tickTimers => .next s.tickTimers
  | .setKey k => .next (s.setKey k)
  | .clearKey k => .next (s.clearKey k)

/-- A sequence of operations, in the order the host issues them (R11, R246: any order). -/
def runOps : List HostOp → State → Host.Outcome State Fault Refusal
  | [], s => .next s
  | op :: ops, s =>
    match applyOp op s with
    | .next t => runOps ops t
    | .fault f => .fault f
    | .refused r => .refused r

/-- The display output: the whole buffer (R240). -/
def State.displayOut (s : State) : Display := s.disp

/-- Bit `b` of the nominal `display` port, `disp[r][c]` at bit `64 * r + c` (R245). -/
def State.displayPort (s : State) (b : Fin 2048) : Bool := s.disp.pixel (wrapRow (b.val / Config.dispCols)) (wrapCol b.val)

/-- The sound-timer output (R241). -/
def State.soundTimerOut (s : State) : Byte := s.st

/-- The outputs `waiting` and `wait_reg` (R242): the register of the wait, none when the core does not wait
(DESIGN CHOICE, safe, log entry 19). -/
def State.waitRegOut (s : State) : Option Reg :=
  match s.run with
  | .waitingForKey x => some x
  | _ => none

/-- The output `faulted` (R242). -/
def State.faultedOut (s : State) : Bool := s.run == .faulted

/-- The 3-bit code of a cause (60_exceptions.md R261). -/
def faultCode : FaultCause → BitVec 3
  | .none => 0
  | .stackUnderflow => 1
  | .stackOverflow => 2
  | .undefinedInstruction => 3
  | .memOutOfBounds => 4
  | .keyIndexRange => 5
  | .loadTooLarge => 6

/-- The outputs `fault_cause`, `fault_pc`, `fault_opcode` (R242). -/
def State.faultRecordOut (s : State) : BitVec 3 × Word × Word := (faultCode s.faultCause, s.faultPc, s.faultOpcode)

end Sys2Proof.Machine
end

