-- ==== Sys2Proof/Safety.lean ====
section
/-! DEFINITION. What counts as a safe state and an ended run: the invariants of 10_state.md R35, the canonical form of
memory, the fault record's rule (60_exceptions.md R261, R270), the end of a run (70_reset_and_hazards.md R298), the fault
conditions of `step` in the order of 40_step_cycle.md R126, and the frames in which claims are stated. -/

namespace Sys2Proof.Machine

/-- `pc` in 0..0x10FE and every live return address in 2..0x1000 (R35, R128). -/
def State.ControlInRange (s : State) : Prop :=
  s.pc.toNat ≤ 0x10FE ∧
  ∀ j : Fin Config.stackDepth, j.val < s.sp.val → 2 ≤ s.stack[j].toNat ∧ s.stack[j].toNat ≤ 0x1000

/-- The fault record says NONE, 0x0000, 0x0000 unless the core is faulted, and a cause if it is (R261, R270, R291). -/
def State.RecordAgrees (s : State) : Prop :=
  if s.run = .faulted then s.faultCause ≠ .none
  else s.faultCause = .none ∧ s.faultPc = 0 ∧ s.faultOpcode = 0

/-- The invariant of the machine: memory in canonical form, the record in agreement with the run state, and, while the
core is not faulted, control in range (R35). -/
def State.Inv (s : State) : Prop :=
  s.mem.wf = true ∧ s.RecordAgrees ∧ (s.run ≠ .faulted → s.ControlInRange)

/-- The word at the program counter, as a number (R63). -/
def State.wordAtPc (s : State) : Nat :=
  (s.mem.read s.pc.toNat).toNat * 256 + (s.mem.read (s.pc.toNat + 1)).toNat

/-- A run has ended normally when the core runs and the instruction at `pc` is a jump to itself (R298;
UNVERIFIED, safe, log entry 23). -/
def State.endedNormally (s : State) : Bool :=
  s.run == .running && decide (s.pc.toNat ≤ 0xFFE) && decide (s.wordAtPc = 0x1000 + s.pc.toNat)

/-- A run has ended abnormally when the core is faulted (R298). -/
def State.endedAbnormally (s : State) : Bool := s.run == .faulted

/-- The condition under which the instruction itself faults, `pc` already advanced (R126 (c) to (f), R265); 26 instructions
have none (R271). Stated with the numbers of the rules, not with the model's own checks. -/
def ownFault (i : Instr) (s : State) : FaultCause :=
  match i with
  | .ret _ => if s.sp.val = 0 then .stackUnderflow else .none
  | .call _ => if s.sp.val = 16 then .stackOverflow else .none
  | .drw _ _ n => if 0 < n.toNat ∧ 0xFFF < s.i.toNat + n.toNat - 1 then .memOutOfBounds else .none
  | .ldBVx _ => if 0xFFF < s.i.toNat + 2 then .memOutOfBounds else .none
  | .ldMemVx x | .ldVxMem x => if 0xFFF < s.i.toNat + x.toNat then .memOutOfBounds else .none
  | .skp x | .sknp x => if 15 < (s.getV x).toNat then .keyIndexRange else .none
  | .cls _ | .jp _ | .seImm _ _ | .sneImm _ _ | .seReg _ _ | .ldImm _ _ | .addImm _ _ | .ldReg _ _ | .orReg _ _
  | .andReg _ _ | .xorReg _ _ | .addReg _ _ | .subReg _ _ | .shr _ _ | .subn _ _ | .shl _ _ | .sneReg _ _ | .ldI _
  | .jpV0 _ | .rnd _ _ | .ldVxDt _ | .ldVxK _ | .ldDtVx _ | .ldStVx _ | .addIVx _ | .ldFVx _ => .none

/-- The fault a running core's next `step` meets, `none` if it meets none: the conditions in the order of R126. -/
def stepFault (s : State) : FaultCause :=
  if 0xFFF ≤ s.pc.toNat then .memOutOfBounds
  else
    match decodeWord (BitVec.ofNat 16 s.wordAtPc) with
    | .error _ => .undefinedInstruction
    | .instr i => ownFault i s

/-- The word of the instruction and the mask of its row give the row's bits (30_encoding.md R95). -/
def EncodedAs (i : Instr) (mask bits : Word) : Prop := encode i &&& mask = bits

/-- FRAME: from `s` to `t` only the V registers that `w` names may differ; every other register, `I`, `pc`, the stack, the
timers, the display, the keys, the run state, the fault record and every byte of memory are as before. -/
def State.OnlyV (s t : State) (w : Reg → Prop) : Prop :=
  t = { s with v := t.v } ∧ (∀ r, ¬ w r → t.getV r = s.getV r) ∧ ∀ a, t.mem.read a = s.mem.read a

/-- `t` is faulted with the record R268 asks of an instruction whose fetch left `pc = A + 2` in `s`; `pc`, in the write set,
is `A` or `A + 2` (R269). -/
def State.FaultedBy (s t : State) (cause : FaultCause) (op : Word) : Prop :=
  t.run = .faulted ∧ t.faultCause = cause ∧ t.faultPc = s.pc - 2 ∧ t.faultOpcode = op ∧ (t.pc = s.pc - 2 ∨ t.pc = s.pc)

/-- FRAME: from `s` to `t` nothing differs but what every fault writes: the run state, the record, `pc`, and the model's
count of draws. -/
def State.OnlyFault (s t : State) : Prop :=
  t = { s with run := t.run, faultCause := t.faultCause, faultPc := t.faultPc, faultOpcode := t.faultOpcode,
               pc := t.pc, draws := t.draws }

/-- The pixel at display row `r` and column `c` lies under bit `col` of sprite row `row` of a sprite drawn at column `vx` and
row `vy`: the wrap is per pixel (43_display.md R190). -/
def UnderSprite (vx vy : Byte) (row col : Nat) (r : Fin Config.dispRows) (c : Fin Config.dispCols) : Prop :=
  r.val = (vy.toNat + row) % 32 ∧ c.val = (vx.toNat + col) % 64

/-- Bit `col` of sprite row `row`, most significant bit first, of the sprite in memory at I (R190). -/
def State.spriteBit (s : State) (row col : Nat) : Bool := (s.mem.read (s.i.toNat + row)).getLsbD (7 - col)

end Sys2Proof.Machine
end

