-- ==== Sys2Proof/Certificates/Slice0/Obligations.lean ====
section
/-! DEFINITION. The statements for the provers. Each docstring names the rule of spec/ it formalises. In a statement about
`exec` the state is the one after the fetch and the advance: `pc` holds `A + 2`, where `A` is the instruction's address
(40_step_cycle.md R122, R124); `StepRunsTheDecodedInstruction` carries it to `step`. -/

open Sys2Proof Sys2Proof.Machine

/-! ### Encoding -/

/-- Decoding the encoding of ANY instruction gives it back, every operand at every value, from the word and from its two
bytes in memory order (R63, R91, R92, R95; the numbers of R95 are the spec's decision D18, log entry 7). -/
def Obligations.DecodeOfEncodeGivesTheInstruction : Prop :=
  ∀ i : Instr, decodeWord (encode i) = .instr i ∧ decode [highByte (encode i), lowByte (encode i)] = .instr i

/-- Encoding what was decoded gives the word back: each legal word has one meaning, and no bit of it is lost (R94, R95;
D18, log entry 7). -/
def Obligations.EncodeOfDecodeGivesTheWord : Prop :=
  ∀ (op : Word) (i : Instr), decodeWord op = .instr i → encode i = op

/-- The selection rule of R94 and the match and mask table of R95 accept the same words (D18, log entry 7). -/
def Obligations.DecoderAcceptsExactlyTheOpcodeMap : Prop :=
  ∀ op : Word, (∃ i, decodeWord op = .instr i) ↔ legalWord op = true

/-- The undefined instructions are exactly the words of the list of R97 (its numbers rest on D18, log entry 7). -/
def Obligations.UndefinedWordsAreTheListOfIllegalEncodings : Prop :=
  ∀ op : Word, decodeWord op = .error (.undefinedInstruction op) ↔
    (op.toNat / 4096 = 0x0 ∧ op.toNat % 256 ≠ 0xE0 ∧ op.toNat % 256 ≠ 0xEE) ∨
    (op.toNat / 4096 = 0x5 ∧ op.toNat % 16 ≠ 0x0) ∨
    (op.toNat / 4096 = 0x8 ∧ op.toNat % 16 ∈ [0x8, 0x9, 0xA, 0xB, 0xC, 0xD, 0xF]) ∨
    (op.toNat / 4096 = 0x9 ∧ op.toNat % 16 ≠ 0x0) ∨
    (op.toNat / 4096 = 0xE ∧ op.toNat % 256 ∉ [0x9E, 0xA1]) ∨
    (op.toNat / 4096 = 0xF ∧ op.toNat % 256 ∉ [0x07, 0x0A, 0x15, 0x18, 0x1E, 0x29, 0x33, 0x55, 0x65])

/-- No word is selected by two rows of the opcode map (R95: the rows do not overlap; D18, log entry 7). -/
def Obligations.OpcodeRowsDoNotOverlap : Prop :=
  ∀ op : Word, ∀ r ∈ opcodeMap, ∀ r' ∈ opcodeMap, r.selects op = true → r'.selects op = true → r = r'

/-- Some words written out from R95 (D18, log entry 7): each decodes to the instruction it stands for. -/
def Obligations.WordsWrittenFromTheTableDecode : Prop :=
  decodeWord 0x00EE = .instr (.ret 0x0) ∧ decodeWord 0x2ABC = .instr (.call 0xABC) ∧
  decodeWord 0x8125 = .instr (.subReg 0x1 0x2) ∧ decodeWord 0xD13F = .instr (.drw 0x1 0x3 0xF) ∧
  decodeWord 0xFA33 = .instr (.ldBVx 0xA) ∧ decodeWord 0xE39E = .instr (.skp 0x3) ∧
  decodeWord 0x00E1 = .error (.undefinedInstruction 0x00E1)

/-- The ignored bits change nothing (R101, the spec's decision D21, log entry 11): the second nibble of `CLS` and `RET`,
and `y` of the shifts. For `RET` the case of an empty stack is left aside: there the fault record holds the word as
fetched. -/
def Obligations.IgnoredBitsChangeNothing : Prop :=
  ∀ s : State, (∀ u u' : Nibble, exec (.cls u) s = exec (.cls u') s) ∧
    (0 < s.sp.val → ∀ u u' : Nibble, exec (.ret u) s = exec (.ret u') s) ∧
    (∀ x y y' : Reg, exec (.shr x y) s = exec (.shr x y') s) ∧
    (∀ x y y' : Reg, exec (.shl x y) s = exec (.shl x y') s)

/-! ### The step operation -/

/-- The fetch is big-endian (R63, R67) and needs no alignment: at any `pc` up to 0xFFE, odd or even (R64, the spec's
decision D10, log entry 16). -/
def Obligations.FetchIsBigEndianAtAnyAddress : Prop :=
  ∀ s : State, s.pc.toNat ≤ 0xFFE →
    ∃ op : Word, s.fetch = some op ∧ op.toNat = (s.mem.read s.pc.toNat).toNat * 256 + (s.mem.read (s.pc.toNat + 1)).toNat

/-- A fetch at 0xFFF or above faults before anything is written, with the address and no word in the record; at 0xFFE or
below it reads the bytes at `pc` and `pc + 1`, high byte first (R123). That the fault is a next state with the run state
FAULTED and this record is R10 and R268, the spec's decisions D3, D4 and D6, log entries 5 and 15. -/
def Obligations.FetchOutOfBoundsFaults : Prop :=
  ∀ s : State, s.run = .running →
    (0xFFF ≤ s.pc.toNat →
      step s = .next { s with run := .faulted, faultCause := .memOutOfBounds, faultPc := s.pc, faultOpcode := 0x0000 }) ∧
    (s.pc.toNat ≤ 0xFFE → ∃ op : Word, s.fetch = some op ∧
      op.toNat = (s.mem.read s.pc.toNat).toNat * 256 + (s.mem.read (s.pc.toNat + 1)).toNat)

/-- When the word at the program counter decodes to an instruction, `step` is `exec` of it on the state whose `pc` alone
has been advanced by 2 (R122, R124). -/
def Obligations.StepRunsTheDecodedInstruction : Prop :=
  ∀ (s : State) (op : Word) (i : Instr), s.run = .running → s.fetch = some op → decodeWord op = .instr i →
    step s = exec i { s with pc := s.pc + 2 }

/-- A word that matches no row faults the step that fetched it (R97, R264, R268): the record holds its address and the
word, `pc` is that address or the advanced one, and nothing else changes (R269). The record and what a fault leaves are
the spec's decisions D3 to D6, log entries 2, 5 and 15. -/
def Obligations.UndefinedWordFaults : Prop :=
  ∀ s : State, s.run = .running → s.pc.toNat ≤ 0xFFE → legalWord (BitVec.ofNat 16 s.wordAtPc) = false →
    ∃ t, step s = .next t ∧ t.run = .faulted ∧ t.faultCause = .undefinedInstruction ∧ t.faultPc = s.pc ∧
      t.faultOpcode = BitVec.ofNat 16 s.wordAtPc ∧ (t.pc = s.pc ∨ t.pc = s.pc + 2) ∧ s.OnlyFault t

/-- R120 and R121 (the spec's decisions D31, D3, D23, log entries 5 and 18): `step` in a key wait and `step` in FAULTED
change no bit of state. -/
def Obligations.StepIsIgnoredWhileWaitingOrFaulted : Prop :=
  ∀ s : State, ((∃ x, s.run = .waitingForKey x) → step s = .next s) ∧ (s.run = .faulted → step s = .next s)

/-- R126: a running core's step faults in exactly the listed cases, in the listed order, and then enters FAULTED with
`fault_pc = A` and, but for the fetch fault, `fault_opcode` = the word. Case (f), the codes and the record are the
spec's decisions D14, D3, D4, D6, log entries 5, 10 and 15. -/
def Obligations.StepFaultsExactlyInTheListedCases : Prop :=
  ∀ s : State, s.run = .running → ∃ t, step s = .next t ∧
    (stepFault s = .none → t.run ≠ .faulted) ∧
    (stepFault s ≠ .none → t.run = .faulted ∧ t.faultCause = stepFault s ∧ t.faultPc = s.pc ∧
      t.faultOpcode = if 0xFFF ≤ s.pc.toNat then 0x0000 else BitVec.ofNat 16 s.wordAtPc)

/-! ### Control flow -/

/-- R140: `CLS` resets every pixel to 0 and touches nothing else. -/
def Obligations.ClsBlanksTheDisplay : Prop :=
  ∀ (u : Nibble) (s : State), EncodedAs (.cls u) 0xF0FF 0x00E0 ∧
    ∃ t, exec (.cls u) s = .next t ∧ t = { s with disp := t.disp } ∧ (∀ r c, t.disp.pixel r c = false) ∧
      ∀ a, t.mem.read a = s.mem.read a

/-- `RET` pops the program counter (R141); on an empty stack it faults with STACK_UNDERFLOW, and nothing but what a
fault writes and SP may differ: what a fault writes (FAULTED, the record, `pc` at `A` or `A + 2`) is R261, R268 and
R269, the spec's decisions D3 to D6, log entries 2, 5 and 15, and R269 leaves SP unspecified there. -/
def Obligations.RetPopsOrUnderflows : Prop :=
  ∀ (u : Nibble) (s : State), EncodedAs (.ret u) 0xF0FF 0x00EE ∧
    (s.sp.val ≠ 0 → ∃ t, exec (.ret u) s = .next t ∧ t = { s with sp := t.sp, pc := t.pc } ∧
      t.sp.val = s.sp.val - 1 ∧ s.stack[t.sp.val]? = some t.pc ∧ ∀ a, t.mem.read a = s.mem.read a) ∧
    (s.sp.val = 0 → ∃ t, exec (.ret u) s = .next t ∧ s.FaultedBy t .stackUnderflow (encode (.ret u)) ∧
      State.OnlyFault { s with sp := t.sp } t)

/-- R142: `JP nnn` sets the program counter and nothing else. -/
def Obligations.JpSetsThePc : Prop :=
  ∀ (nnn : Addr12) (s : State), EncodedAs (.jp nnn) 0xF000 0x1000 ∧
    ∃ t, exec (.jp nnn) s = .next t ∧ t = { s with pc := t.pc } ∧ t.pc.toNat = nnn.toNat ∧
      ∀ a, t.mem.read a = s.mem.read a

/-- `CALL nnn` saves the advanced program counter and jumps (R143); on a full stack it faults with STACK_OVERFLOW, and
nothing but what a fault writes and SP may differ: what a fault writes (FAULTED, the record, `pc` at `A` or `A + 2`) is
R261, R268 and R269, the spec's decisions D3 to D6, log entries 2, 5 and 15, and R269 leaves SP unspecified there. -/
def Obligations.CallPushesOrOverflows : Prop :=
  ∀ (nnn : Addr12) (s : State), EncodedAs (.call nnn) 0xF000 0x2000 ∧
    (s.sp.val ≠ 16 → ∃ t, exec (.call nnn) s = .next t ∧ t = { s with sp := t.sp, stack := t.stack, pc := t.pc } ∧
      t.sp.val = s.sp.val + 1 ∧ t.stack[s.sp.val]? = some s.pc ∧
      (∀ j : Nat, j ≠ s.sp.val → t.stack[j]? = s.stack[j]?) ∧ t.pc.toNat = nnn.toNat ∧
      ∀ a, t.mem.read a = s.mem.read a) ∧
    (s.sp.val = 16 → ∃ t, exec (.call nnn) s = .next t ∧ s.FaultedBy t .stackOverflow (encode (.call nnn)) ∧
      State.OnlyFault { s with sp := t.sp } t)

/-- R144: `JP V0, nnn` jumps to the exact sum, up to 0x10FE. -/
def Obligations.JpV0SetsThePcToTheSum : Prop :=
  ∀ (nnn : Addr12) (s : State), EncodedAs (.jpV0 nnn) 0xF000 0xB000 ∧
    ∃ t, exec (.jpV0 nnn) s = .next t ∧ t = { s with pc := t.pc } ∧
      t.pc.toNat = (s.getV 0x0).toNat + nnn.toNat ∧ ∀ a, t.mem.read a = s.mem.read a

/-- R145 to R148: the four skips add 2 to the advanced program counter when their comparison holds and otherwise do
nothing. -/
def Obligations.SkipsCompareAndAdvance : Prop :=
  ∀ (x y : Reg) (nn : Byte) (s : State),
    (EncodedAs (.seImm x nn) 0xF000 0x3000 ∧ EncodedAs (.sneImm x nn) 0xF000 0x4000 ∧
      EncodedAs (.seReg x y) 0xF00F 0x5000 ∧ EncodedAs (.sneReg x y) 0xF00F 0x9000) ∧
    exec (.seImm x nn) s = .next { s with pc := if (s.getV x).toNat = nn.toNat then s.pc + 2 else s.pc } ∧
    exec (.sneImm x nn) s = .next { s with pc := if (s.getV x).toNat ≠ nn.toNat then s.pc + 2 else s.pc } ∧
    exec (.seReg x y) s = .next { s with pc := if (s.getV x).toNat = (s.getV y).toNat then s.pc + 2 else s.pc } ∧
    exec (.sneReg x y) s = .next { s with pc := if (s.getV x).toNat ≠ (s.getV y).toNat then s.pc + 2 else s.pc }

/-- "Call then return restores PC exactly to the instruction following the call" (R141, R143), and the depth. -/
def Obligations.CallThenReturnRestoresPcAndDepth : Prop :=
  ∀ (nnn : Addr12) (u : Nibble) (s : State), s.sp.val < 16 →
    ∃ t t', exec (.call nnn) s = .next t ∧ exec (.ret u) { t with pc := t.pc + 2 } = .next t' ∧
      t' = { s with stack := t.stack }

/-- A core that runs at a jump to itself is at a fixed point of `step` (R142, R298; that this is the end of a run is the
spec's decision D25, log entry 23). -/
def Obligations.JumpToItselfIsAFixedPoint : Prop := ∀ s : State, s.endedNormally = true → step s = .next s

/-! ### Arithmetic and logic -/

/-- R160 and R162: `LD Vx, nn` and `LD Vx, Vy` load the destination and nothing else. -/
def Obligations.LoadsIntoARegister : Prop :=
  ∀ (x y : Reg) (nn : Byte) (s : State),
    (EncodedAs (.ldImm x nn) 0xF000 0x6000 ∧ EncodedAs (.ldReg x y) 0xF00F 0x8000) ∧
    (∃ t, exec (.ldImm x nn) s = .next t ∧ t.getV x = nn ∧ s.OnlyV t (· = x)) ∧
    (∃ t, exec (.ldReg x y) s = .next t ∧ t.getV x = s.getV y ∧ s.OnlyV t (· = x))

/-- R163 to R165: the bitwise instructions, bit by bit; VF is not modified unless it is the destination. -/
def Obligations.LogicIsBitwiseWithoutFlags : Prop :=
  ∀ (x y : Reg) (s : State),
    (EncodedAs (.orReg x y) 0xF00F 0x8001 ∧ EncodedAs (.andReg x y) 0xF00F 0x8002 ∧
      EncodedAs (.xorReg x y) 0xF00F 0x8003) ∧
    (∃ t, exec (.orReg x y) s = .next t ∧ s.OnlyV t (· = x) ∧
      ∀ k < 8, (t.getV x).getLsbD k = ((s.getV x).getLsbD k || (s.getV y).getLsbD k)) ∧
    (∃ t, exec (.andReg x y) s = .next t ∧ s.OnlyV t (· = x) ∧
      ∀ k < 8, (t.getV x).getLsbD k = ((s.getV x).getLsbD k && (s.getV y).getLsbD k)) ∧
    (∃ t, exec (.xorReg x y) s = .next t ∧ s.OnlyV t (· = x) ∧
      ∀ k < 8, (t.getV x).getLsbD k = ((s.getV x).getLsbD k ^^ (s.getV y).getLsbD k))

/-- R161: `ADD Vx, nn` wraps modulo 256 and has no flag effect. -/
def Obligations.AddImmediateWrapsWithoutFlag : Prop :=
  ∀ (x : Reg) (nn : Byte) (s : State), EncodedAs (.addImm x nn) 0xF000 0x7000 ∧
    ∃ t, exec (.addImm x nn) s = .next t ∧ s.OnlyV t (· = x) ∧
      (t.getV x).toNat = ((s.getV x).toNat + nn.toNat) % 256

/-- R166: `ADD Vx, Vy`: the sum modulo 256, VF = carry, the flag written last. That VF ends as the flag when `x` is F is
the spec's decision D12, log entry 8. -/
def Obligations.AddRegistersWithCarry : Prop :=
  ∀ (x y : Reg) (s : State), EncodedAs (.addReg x y) 0xF00F 0x8004 ∧
    ∃ t, exec (.addReg x y) s = .next t ∧ s.OnlyV t (fun r => r = x ∨ r = 0xF) ∧
      (x ≠ 0xF → (t.getV x).toNat = ((s.getV x).toNat + (s.getV y).toNat) % 256) ∧
      t.getV 0xF = if (s.getV x).toNat + (s.getV y).toNat > 255 then 1 else 0

/-- R167 and R168: the two subtractions modulo 256, VF = not-borrow (equality gives 1), the flag written last; for `x` =
F this order is the spec's decision D12, log entry 8. -/
def Obligations.SubtractionsWithNotBorrow : Prop :=
  ∀ (x y : Reg) (s : State),
    (EncodedAs (.subReg x y) 0xF00F 0x8005 ∧ EncodedAs (.subn x y) 0xF00F 0x8007) ∧
    (∃ t, exec (.subReg x y) s = .next t ∧ s.OnlyV t (fun r => r = x ∨ r = 0xF) ∧
      (x ≠ 0xF → ((t.getV x).toNat : Int) = ((s.getV x).toNat - (s.getV y).toNat : Int) % 256) ∧
      t.getV 0xF = if (s.getV x).toNat ≥ (s.getV y).toNat then 1 else 0) ∧
    (∃ t, exec (.subn x y) s = .next t ∧ s.OnlyV t (fun r => r = x ∨ r = 0xF) ∧
      (x ≠ 0xF → ((t.getV x).toNat : Int) = ((s.getV y).toNat - (s.getV x).toNat : Int) % 256) ∧
      t.getV 0xF = if (s.getV x).toNat ≤ (s.getV y).toNat then 1 else 0)

/-- R169 and R170: the shifts by one of `V[x]`, VF = the bit shifted out, written last (for `x` = F the spec's decision
D12, log entry 8); `y` plays no part. -/
def Obligations.ShiftsMoveOneBitIntoVF : Prop :=
  ∀ (x y : Reg) (s : State),
    (EncodedAs (.shr x y) 0xF00F 0x8006 ∧ EncodedAs (.shl x y) 0xF00F 0x800E) ∧
    (∃ t, exec (.shr x y) s = .next t ∧ s.OnlyV t (fun r => r = x ∨ r = 0xF) ∧
      (x ≠ 0xF → (t.getV x).toNat = (s.getV x).toNat / 2) ∧ (t.getV 0xF).toNat = (s.getV x).toNat % 2) ∧
    (∃ t, exec (.shl x y) s = .next t ∧ s.OnlyV t (fun r => r = x ∨ r = 0xF) ∧
      (x ≠ 0xF → (t.getV x).toNat = (s.getV x).toNat * 2 % 256) ∧ (t.getV 0xF).toNat = (s.getV x).toNat / 128)

/-- R171: `RND Vx, nn` draws one byte, on which nothing is known, and ANDs it with `nn`: whatever was drawn, the result
is a submask of `nn`. The byte is the model's free value of the draw, and the count of draws is the model's own (R171's
decision D17, log entry 1). -/
def Obligations.RndIsADrawMaskedByTheImmediate : Prop :=
  ∀ (x : Reg) (nn : Byte) (s : State), EncodedAs (.rnd x nn) 0xF000 0xC000 ∧
    ∃ t, exec (.rnd x nn) s = .next t ∧ t = { s with v := t.v, draws := s.draws + 1 } ∧
      t.getV x = Config.rnd s.draws &&& nn ∧ t.getV x &&& ~~~nn = 0 ∧ (∀ r, r ≠ x → t.getV r = s.getV r) ∧
      ∀ a, t.mem.read a = s.mem.read a

/-! ### Display -/

/-- A sprite in range is XORed onto the display pixel by pixel, with wrap per pixel, and VF is the collision;
coordinates are those before VF is reset (for `x` or `y` = F the spec's decision D30, log entry 9); nothing else changes
(R190). A sprite with a row above 0xFFF faults with MEM_OUT_OF_BOUNDS (R190, R265): what a fault writes (FAULTED, the
record, `pc` at `A` or `A + 2`) is R261, R268 and R269, the spec's decisions D3 to D6, log entries 2, 5 and 15. -/
def Obligations.DrwXorsTheSpriteAndReportsCollision : Prop :=
  ∀ (x y : Reg) (n : Nibble) (s : State), EncodedAs (.drw x y n) 0xF000 0xD000 ∧
    ((n.toNat = 0 ∨ s.i.toNat + n.toNat - 1 ≤ 0xFFF) →
      ∃ t, exec (.drw x y n) s = .next t ∧ t = { s with v := t.v, disp := t.disp } ∧
        (∀ r, r ≠ 0xF → t.getV r = s.getV r) ∧ (∀ a, t.mem.read a = s.mem.read a) ∧
        (∀ row < n.toNat, ∀ col < 8, ∀ r c, UnderSprite (s.getV x) (s.getV y) row col r c →
          t.disp.pixel r c = (s.disp.pixel r c ^^ s.spriteBit row col)) ∧
        (∀ r c, (∀ row < n.toNat, ∀ col < 8, ¬ UnderSprite (s.getV x) (s.getV y) row col r c) →
          t.disp.pixel r c = s.disp.pixel r c) ∧
        (t.getV 0xF = 1 ∨ t.getV 0xF = 0) ∧
        (t.getV 0xF = 1 ↔ ∃ row < n.toNat, ∃ col < 8, ∃ r c, UnderSprite (s.getV x) (s.getV y) row col r c ∧
          s.spriteBit row col = true ∧ s.disp.pixel r c = true)) ∧
    (0 < n.toNat → 0xFFF < s.i.toNat + n.toNat - 1 →
      ∃ t, exec (.drw x y n) s = .next t ∧ s.FaultedBy t .memOutOfBounds (encode (.drw x y n)))

/-- What a draw that faults may leave (R190, R191 item 11, R269): a pixel under a sprite row that is in range is old or
XORed, every other pixel is old, VF is old, 0, or 1 if such a row collided; nothing else changes but what a fault
writes. R269 leaves the write set unspecified within these bounds: what a fault writes (FAULTED, the record, `pc` at `A`
or `A + 2`) is R261, R268 and R269, the spec's decisions D3 to D6, log entries 2, 5 and 15. -/
def Obligations.FaultedDrwKeepsEverythingOutsideItsWriteSet : Prop :=
  ∀ (x y : Reg) (n : Nibble) (s : State), 0 < n.toNat → 0xFFF < s.i.toNat + n.toNat - 1 →
    ∃ t, exec (.drw x y n) s = .next t ∧ s.FaultedBy t .memOutOfBounds (encode (.drw x y n)) ∧
      State.OnlyFault { s with v := t.v, disp := t.disp } t ∧ (∀ r, r ≠ 0xF → t.getV r = s.getV r) ∧
      (∀ r c, t.disp.pixel r c = s.disp.pixel r c ∨
        ∃ row < n.toNat, ∃ col < 8, s.i.toNat + row ≤ 0xFFF ∧ UnderSprite (s.getV x) (s.getV y) row col r c ∧
          t.disp.pixel r c = (s.disp.pixel r c ^^ s.spriteBit row col)) ∧
      (t.getV 0xF = s.getV 0xF ∨ t.getV 0xF = 0 ∨
        (t.getV 0xF = 1 ∧ ∃ row < n.toNat, ∃ col < 8, s.i.toNat + row ≤ 0xFFF ∧ ∃ r c,
          UnderSprite (s.getV x) (s.getV y) row col r c ∧ s.spriteBit row col = true ∧ s.disp.pixel r c = true))

/-- Drawing the same sprite twice at the same place restores the display, and the second draw reports a collision iff a
1 bit of the sprite lay over a pixel that was 0 before the first (R190; on a blank display: iff the sprite has a 1 bit,
R191 item 8). The coordinate registers are not VF, which the first draw writes. -/
def Obligations.DrawingTwiceRestoresTheDisplay : Prop :=
  ∀ (x y : Reg) (n : Nibble) (s : State), x ≠ 0xF → y ≠ 0xF → (n.toNat = 0 ∨ s.i.toNat + n.toNat - 1 ≤ 0xFFF) →
    ∃ t t', exec (.drw x y n) s = .next t ∧ exec (.drw x y n) t = .next t' ∧ t'.disp = s.disp ∧
      (t'.getV 0xF = 1 ∨ t'.getV 0xF = 0) ∧
      (t'.getV 0xF = 1 ↔ ∃ row < n.toNat, ∃ col < 8, ∃ r c, UnderSprite (s.getV x) (s.getV y) row col r c ∧
        s.spriteBit row col = true ∧ s.disp.pixel r c = false)

/-! ### Index, memory, BCD, timers -/

/-- R200 to R202: the three instructions that write I; no flag and no mask (for `ADD I` and `LD F` the spec's decisions
D13 and D29, log entry 17). -/
def Obligations.IndexInstructionsWriteI : Prop :=
  ∀ (x : Reg) (nnn : Addr12) (s : State),
    (EncodedAs (.ldI nnn) 0xF000 0xA000 ∧ EncodedAs (.addIVx x) 0xF0FF 0xF01E ∧ EncodedAs (.ldFVx x) 0xF0FF 0xF029) ∧
    (∃ t, exec (.ldI nnn) s = .next t ∧ t = { s with i := t.i } ∧ t.i.toNat = nnn.toNat ∧
      ∀ a, t.mem.read a = s.mem.read a) ∧
    (∃ t, exec (.addIVx x) s = .next t ∧ t = { s with i := t.i } ∧
      t.i.toNat = (s.i.toNat + (s.getV x).toNat) % 65536 ∧ ∀ a, t.mem.read a = s.mem.read a) ∧
    (∃ t, exec (.ldFVx x) s = .next t ∧ t = { s with i := t.i } ∧ t.i.toNat = (s.getV x).toNat * 5 ∧
      ∀ a, t.mem.read a = s.mem.read a)

/-- `LD B, Vx` stores the three decimal digits at I, I+1, I+2 and changes no other byte (R203); past the end of memory
it faults with MEM_OUT_OF_BOUNDS: what a fault writes (FAULTED, the record, `pc` at `A` or `A + 2`) is R261, R268 and
R269, the spec's decisions D3 to D6, log entries 2, 5 and 15. -/
def Obligations.LdBStoresTheDecimalDigits : Prop :=
  ∀ (x : Reg) (s : State), EncodedAs (.ldBVx x) 0xF0FF 0xF033 ∧
    (s.mem.wf = true → s.i.toNat + 2 ≤ 0xFFF →
      ∃ t, exec (.ldBVx x) s = .next t ∧ t = { s with mem := t.mem } ∧
        (t.mem.read s.i.toNat).toNat = (s.getV x).toNat / 100 ∧
        (t.mem.read (s.i.toNat + 1)).toNat = (s.getV x).toNat / 10 % 10 ∧
        (t.mem.read (s.i.toNat + 2)).toNat = (s.getV x).toNat % 10 ∧
        ∀ a, (a < s.i.toNat ∨ s.i.toNat + 2 < a) → t.mem.read a = s.mem.read a) ∧
    (0xFFF < s.i.toNat + 2 → ∃ t, exec (.ldBVx x) s = .next t ∧ s.FaultedBy t .memOutOfBounds (encode (.ldBVx x)))

/-- `LD [I], Vx` stores `V[0]` to `V[x]` from I upward, leaves I as it is and changes no other byte (R204); past the end
of memory it faults with MEM_OUT_OF_BOUNDS: what a fault writes (FAULTED, the record, `pc` at `A` or `A + 2`) is R261,
R268 and R269, the spec's decisions D3 to D6, log entries 2, 5 and 15. -/
def Obligations.LdMemStoresTheRegisters : Prop :=
  ∀ (x : Reg) (s : State), EncodedAs (.ldMemVx x) 0xF0FF 0xF055 ∧
    (s.mem.wf = true → s.i.toNat + x.toNat ≤ 0xFFF →
      ∃ t, exec (.ldMemVx x) s = .next t ∧ t = { s with mem := t.mem } ∧
        (∀ r : Reg, r.toNat ≤ x.toNat → t.mem.read (s.i.toNat + r.toNat) = s.getV r) ∧
        ∀ a, (a < s.i.toNat ∨ s.i.toNat + x.toNat < a) → t.mem.read a = s.mem.read a) ∧
    (0xFFF < s.i.toNat + x.toNat →
      ∃ t, exec (.ldMemVx x) s = .next t ∧ s.FaultedBy t .memOutOfBounds (encode (.ldMemVx x)))

/-- `LD Vx, [I]` loads `V[0]` to `V[x]` from I upward, leaves I and the registers above `x` as they are (R205); past the
end of memory it faults with MEM_OUT_OF_BOUNDS: what a fault writes (FAULTED, the record, `pc` at `A` or `A + 2`) is
R261, R268 and R269, the spec's decisions D3 to D6, log entries 2, 5 and 15. -/
def Obligations.LdRegsLoadsFromMemory : Prop :=
  ∀ (x : Reg) (s : State), EncodedAs (.ldVxMem x) 0xF0FF 0xF065 ∧
    (s.i.toNat + x.toNat ≤ 0xFFF →
      ∃ t, exec (.ldVxMem x) s = .next t ∧ s.OnlyV t (fun r => r.toNat ≤ x.toNat) ∧
        ∀ r : Reg, r.toNat ≤ x.toNat → t.getV r = s.mem.read (s.i.toNat + r.toNat)) ∧
    (0xFFF < s.i.toNat + x.toNat →
      ∃ t, exec (.ldVxMem x) s = .next t ∧ s.FaultedBy t .memOutOfBounds (encode (.ldVxMem x)))

/-- What a store that faults may leave (R269, the spec's decision D5, log entry 2): each byte of its block that is in
range is old or stored, every other byte is old, and nothing else changes but what a fault writes. That a fault is a
next state is D3, log entry 5. -/
def Obligations.FaultedStoresKeepEverythingOutsideTheirWriteSet : Prop :=
  ∀ (x : Reg) (s : State), s.mem.wf = true →
    (0xFFF < s.i.toNat + 2 →
      ∃ t, exec (.ldBVx x) s = .next t ∧ State.OnlyFault { s with mem := t.mem } t ∧
        ∀ a, t.mem.read a = s.mem.read a ∨ (a ≤ 0xFFF ∧
          ((a = s.i.toNat ∧ (t.mem.read a).toNat = (s.getV x).toNat / 100) ∨
           (a = s.i.toNat + 1 ∧ (t.mem.read a).toNat = (s.getV x).toNat / 10 % 10)))) ∧
    (0xFFF < s.i.toNat + x.toNat →
      ∃ t, exec (.ldMemVx x) s = .next t ∧ State.OnlyFault { s with mem := t.mem } t ∧
        ∀ a, t.mem.read a = s.mem.read a ∨
          ∃ r : Reg, r.toNat ≤ x.toNat ∧ a = s.i.toNat + r.toNat ∧ a ≤ 0xFFF ∧ t.mem.read a = s.getV r)

/-- What a block load that faults may leave (R269, the spec's decision D5, log entry 2): each register up to `x` whose
byte is in range is old or loaded, every other register is old, and nothing else changes but what a fault writes. That a
fault is a next state is D3, log entry 5. -/
def Obligations.FaultedLoadKeepsEverythingOutsideItsWriteSet : Prop :=
  ∀ (x : Reg) (s : State), 0xFFF < s.i.toNat + x.toNat →
    ∃ t, exec (.ldVxMem x) s = .next t ∧ State.OnlyFault { s with v := t.v } t ∧
      ∀ r : Reg, t.getV r = s.getV r ∨
        (r.toNat ≤ x.toNat ∧ s.i.toNat + r.toNat ≤ 0xFFF ∧ t.getV r = s.mem.read (s.i.toNat + r.toNat))

/-- Storing registers and loading them back changes nothing more (R204, R205). -/
def Obligations.StoreThenLoadRestoresTheRegisters : Prop :=
  ∀ (x : Reg) (s : State), s.mem.wf = true → s.i.toNat + x.toNat ≤ 0xFFF →
    ∃ t, exec (.ldMemVx x) s = .next t ∧ exec (.ldVxMem x) t = .next t

/-- A store is seen by the next fetch: two registers stored at the program counter are fetched as the word they make
(R63, R72, R204; R72 is the spec's decision D26, log entry 16). -/
def Obligations.FetchSeesStoredBytes : Prop :=
  ∀ (x r r' : Reg) (s : State), s.mem.wf = true → s.i.toNat + x.toNat ≤ 0xFFF → r.toNat + 1 = r'.toNat →
    r'.toNat ≤ x.toNat → s.pc.toNat = s.i.toNat + r.toNat →
    ∃ t, exec (.ldMemVx x) s = .next t ∧ t.fetch = some (wordOfBytes (s.getV r) (s.getV r'))

/-- R206 to R208: the three timer moves; each writes its destination only. -/
def Obligations.TimerMoves : Prop :=
  ∀ (x : Reg) (s : State),
    (EncodedAs (.ldVxDt x) 0xF0FF 0xF007 ∧ EncodedAs (.ldDtVx x) 0xF0FF 0xF015 ∧ EncodedAs (.ldStVx x) 0xF0FF 0xF018) ∧
    (∃ t, exec (.ldVxDt x) s = .next t ∧ t.getV x = s.dt ∧ s.OnlyV t (· = x)) ∧
    (∃ t, exec (.ldDtVx x) s = .next t ∧ t = { s with dt := t.dt } ∧ t.dt = s.getV x ∧
      ∀ a, t.mem.read a = s.mem.read a) ∧
    (∃ t, exec (.ldStVx x) s = .next t ∧ t = { s with st := t.st } ∧ t.st = s.getV x ∧
      ∀ a, t.mem.read a = s.mem.read a)

/-! ### Input -/

/-- R220: `LD Vx, K` enters the key wait for `x`, whatever the key states are, and writes nothing else. -/
def Obligations.LdKEntersTheKeyWait : Prop :=
  ∀ (x : Reg) (s : State), EncodedAs (.ldVxK x) 0xF0FF 0xF00A ∧
    ∃ t, exec (.ldVxK x) s = .next t ∧ t = { s with run := t.run } ∧ t.run = .waitingForKey x ∧
      ∀ a, t.mem.read a = s.mem.read a

/-- The key skips test the key whose code is in `V[x]` (R221, R222); a value above 15 faults with KEY_INDEX_RANGE (R224,
the spec's decision D14, log entry 10): what a fault writes (FAULTED, the record, `pc` at `A` or `A + 2`) is R261, R268
and R269, the spec's decisions D3 to D6, log entries 2, 5 and 15. -/
def Obligations.KeySkipsTestTheKeyNamedByVx : Prop :=
  ∀ (x : Reg) (s : State),
    (EncodedAs (.skp x) 0xF0FF 0xE09E ∧ EncodedAs (.sknp x) 0xF0FF 0xE0A1) ∧
    (∀ down, s.keys[(s.getV x).toNat]? = some down →
      exec (.skp x) s = .next { s with pc := if down = true then s.pc + 2 else s.pc } ∧
      exec (.sknp x) s = .next { s with pc := if down = false then s.pc + 2 else s.pc }) ∧
    (15 < (s.getV x).toNat →
      (∃ t, exec (.skp x) s = .next t ∧ s.FaultedBy t .keyIndexRange (encode (.skp x)) ∧ s.OnlyFault t) ∧
      (∃ t, exec (.sknp x) s = .next t ∧ s.FaultedBy t .keyIndexRange (encode (.sknp x)) ∧ s.OnlyFault t))

/-- The key wait holds through any number of steps, ticks and key-up events: only timers and key states change (R120,
R223, R236, R238; the spec's decisions D31 and D32, log entry 18). -/
def Obligations.KeyWaitHoldsUntilAKeyDownEvent : Prop :=
  ∀ (ops : List HostOp) (s : State) (x : Reg), s.run = .waitingForKey x →
    (∀ op ∈ ops, op = .step ∨ op = .tickTimers ∨ ∃ k, op = .clearKey k) →
    ∃ t, runOps ops s = .next t ∧ t = { s with dt := t.dt, st := t.st, keys := t.keys }

/-! ### Host operations -/

/-- R236: `tick_timers` takes 1 from each timer that is not 0, also in a key wait, and changes nothing else; it is
ignored in FAULTED (the spec's decisions D32 and D23, log entry 18). -/
def Obligations.TickDecrementsBothTimers : Prop :=
  ∀ s : State, ∃ t, applyOp .tickTimers s = .next t ∧
    (s.run = .faulted → t = s) ∧
    (s.run ≠ .faulted → t = { s with dt := t.dt, st := t.st } ∧ t.dt.toNat = s.dt.toNat - 1 ∧ t.st.toNat = s.st.toNat - 1)

/-- R237: `set_key(k)` marks the key down and, in a key wait, puts its code into the waiting register and resumes; it is
ignored in FAULTED (the spec's decisions D15, D16, D23, log entries 13 and 18). -/
def Obligations.SetKeyMarksTheKeyAndResolvesAWait : Prop :=
  ∀ (k : Key) (s : State), ∃ t, applyOp (.setKey k) s = .next t ∧
    (s.run = .faulted → t = s) ∧
    (s.run ≠ .faulted → t = { s with keys := t.keys, v := t.v, run := .running } ∧
      (∀ j : Key, t.keyDown j = (if j = k then true else s.keyDown j)) ∧
      (s.run = .running → t.v = s.v) ∧
      (∀ x, s.run = .waitingForKey x → (t.getV x).toNat = k.toNat ∧ ∀ r, r ≠ x → t.getV r = s.getV r))

/-- R238: `clear_key(k)` marks the key up, never changes the run state, and is ignored in FAULTED (the last is the
spec's decision D23, log entry 18). -/
def Obligations.ClearKeyMarksTheKeyUp : Prop :=
  ∀ (k : Key) (s : State), ∃ t, applyOp (.clearKey k) s = .next t ∧
    (s.run = .faulted → t = s) ∧
    (s.run ≠ .faulted → t = { s with keys := t.keys } ∧
      ∀ j : Key, t.keyDown j = (if j = k then false else s.keyDown j))

/-- R239: `load_program` places the image at 0x200 and changes nothing else; an image above 3584 bytes faults with
memory unchanged; it is ignored in FAULTED (the spec's decisions D7, D23, D27, log entries 14 and 18; the run state
FAULTED and the record are D3, D4 and D6, log entries 5 and 15). -/
def Obligations.LoadProgramPlacesTheImageOrFaults : Prop :=
  ∀ (bytes : List Byte) (s : State), ∃ t, applyOp (.loadProgram bytes) s = .next t ∧
    (s.run = .faulted → t = s) ∧
    (s.run ≠ .faulted → 3584 < bytes.length →
      t = { s with run := .faulted, faultCause := .loadTooLarge, faultPc := s.pc, faultOpcode := 0x0000 }) ∧
    (s.run ≠ .faulted → bytes.length ≤ 3584 → s.mem.wf = true →
      t = { s with mem := t.mem } ∧
      (∀ k (h : k < bytes.length), t.mem.read (0x200 + k) = bytes[k]) ∧
      ∀ a, (a < 0x200 ∨ 0x200 + bytes.length ≤ a) → t.mem.read a = s.mem.read a)

/-- R291: the `reset` operation, accepted in every run state, restores everything but memory above the font and the key
states, and reloads the font (the spec's decision D9, log entry 12). -/
def Obligations.ResetRestoresAllButMemoryAndKeys : Prop :=
  ∀ s : State, s.mem.wf = true → ∃ t, applyOp .reset s = .next t ∧
    (∀ r, t.getV r = 0x00) ∧ t.i = 0x0000 ∧ t.pc = 0x0200 ∧ t.sp.val = 0 ∧ (∀ j : Fin 16, t.stack[j] = 0x0000) ∧
    t.dt = 0x00 ∧ t.st = 0x00 ∧ (∀ r c, t.disp.pixel r c = false) ∧ t.run = .running ∧
    t.faultCause = .none ∧ t.faultPc = 0x0000 ∧ t.faultOpcode = 0x0000 ∧
    (∀ k (h : k < Config.font.length), t.mem.read k = Config.font[k]) ∧
    (∀ a, 0x050 ≤ a → t.mem.read a = s.mem.read a) ∧ t.keys = s.keys

/-- A faulted core stays exactly as it is under any sequence of operations without a `reset` (R121, R270, the spec's
decisions D3 and D23, log entries 5 and 18). -/
def Obligations.FaultedIgnoresEverythingButReset : Prop :=
  ∀ (ops : List HostOp) (s : State), s.run = .faulted → (∀ op ∈ ops, op ≠ .reset) → runOps ops s = .next s

/-- R40: the state after power-on. The zeros are the spec's decision D8 (log entry 4); the font bytes are `Config.font`,
of which the first five are the source's and the rest PRESUMED (log entry 3). -/
def Obligations.PowerOnState : Prop :=
  State.reset.pc = 0x0200 ∧ State.reset.run = .running ∧
  (∀ k (h : k < Config.font.length), State.reset.mem.read k = Config.font[k]) ∧ Config.font.length = 80 ∧
  Config.font.take 5 = [0xF0, 0x90, 0x90, 0x90, 0xF0] ∧
  (∀ a, 0x050 ≤ a → State.reset.mem.read a = 0x00) ∧ (∀ r, State.reset.getV r = 0x00) ∧ State.reset.i = 0x0000 ∧
  State.reset.sp.val = 0 ∧ (∀ j : Fin 16, State.reset.stack[j] = 0x0000) ∧ State.reset.dt = 0x00 ∧
  State.reset.st = 0x00 ∧ (∀ r c, State.reset.disp.pixel r c = false) ∧ (∀ k, State.reset.keyDown k = false) ∧
  State.reset.faultCause = .none ∧ State.reset.faultPc = 0x0000 ∧ State.reset.faultOpcode = 0x0000

/-! ### Invariants -/

/-- The invariant (R35, R261, and the canonical form of memory) holds after power-on (R40; its zeros are the spec's
decision D8, log entry 4, and the fault record is D4 and D6, log entry 15). -/
def Obligations.InvariantHoldsAfterPowerOn : Prop := State.reset.Inv

/-- Every step keeps the invariant: memory canonical, the fault record in agreement with the run state, and, while not
faulted, `pc` at most 0x10FE and every live return address in 2..0x1000 (R35, R128, R261; the run state FAULTED and the
record are the spec's decisions D3, D4 and D6, log entries 5 and 15). -/
def Obligations.EveryStepKeepsTheInvariant : Prop := ∀ s t : State, s.Inv → step s = .next t → t.Inv

/-- Any sequence of the six operations, from any state with the invariant, ends in a state with the invariant (R11, R35,
R246): never in a stop of the model (log entry 5). -/
def Obligations.EveryScheduleKeepsTheInvariant : Prop :=
  ∀ (ops : List HostOp) (s : State), s.Inv → ∃ t, runOps ops s = .next t ∧ t.Inv

/-! ### Whole-machine rules -/

/-- Only `CLS` and `DRW` write the display (R28). -/
def Obligations.OnlyClsAndDrwWriteTheDisplay : Prop :=
  ∀ (i : Instr) (s t : State), exec i s = .next t → t.disp ≠ s.disp → (∃ u, i = .cls u) ∨ ∃ x y n, i = .drw x y n

/-- Only `LD B, Vx` and `LD [I], Vx` write memory (R74). -/
def Obligations.OnlyTheStoresWriteMemory : Prop :=
  ∀ (i : Instr) (s t : State), exec i s = .next t → t.mem ≠ s.mem → (∃ x, i = .ldBVx x) ∨ ∃ x, i = .ldMemVx x

/-- Only `LD I`, `ADD I` and `LD F` write I; in particular the block transfers do not (R22, R204, R205). -/
def Obligations.OnlyThreeInstructionsWriteI : Prop :=
  ∀ (i : Instr) (s t : State), exec i s = .next t → t.i ≠ s.i →
    (∃ nnn, i = .ldI nnn) ∨ (∃ x, i = .addIVx x) ∨ ∃ x, i = .ldFVx x

/-- Only `CALL` writes the stack, only `CALL` and `RET` write SP (R24, R25). -/
def Obligations.OnlyCallAndRetWriteTheStack : Prop :=
  ∀ (i : Instr) (s t : State), exec i s = .next t →
    (t.stack ≠ s.stack → ∃ nnn, i = .call nnn) ∧
    (t.sp ≠ s.sp → (∃ nnn, i = .call nnn) ∨ ∃ u, i = .ret u)

/-- No step writes a key state, and only the timer moves write a timer (R26, R27, R29). -/
def Obligations.StepsNeverWriteKeysAndOnlyTimerMovesWriteTimers : Prop :=
  (∀ s t : State, step s = .next t → t.keys = s.keys) ∧
  ∀ (i : Instr) (s t : State), exec i s = .next t →
    (t.dt ≠ s.dt → ∃ x, i = .ldDtVx x) ∧ (t.st ≠ s.st → ∃ x, i = .ldStVx x)

/-- An instruction that writes VF has VF as its `x`, loads all sixteen registers, or is one of the six of R21. -/
def Obligations.OnlyTheFlagInstructionsWriteVFImplicitly : Prop :=
  ∀ (i : Instr) (s t : State), exec i s = .next t → t.getV 0xF ≠ s.getV 0xF →
    (∃ nn, i = .ldImm 0xF nn) ∨ (∃ nn, i = .addImm 0xF nn) ∨ (∃ y, i = .ldReg 0xF y) ∨ (∃ y, i = .orReg 0xF y) ∨
    (∃ y, i = .andReg 0xF y) ∨ (∃ y, i = .xorReg 0xF y) ∨ (∃ nn, i = .rnd 0xF nn) ∨ i = .ldVxDt 0xF ∨
    i = .ldVxMem 0xF ∨
    (∃ x y, i = .addReg x y) ∨ (∃ x y, i = .subReg x y) ∨ (∃ x y, i = .subn x y) ∨ (∃ x y, i = .shr x y) ∨
    (∃ x y, i = .shl x y) ∨ ∃ x y n, i = .drw x y n

/-- No instruction reads the sound timer: two runs that differ in it alone differ in it alone afterwards, and `LD ST,
Vx` removes even that difference (R27). -/
def Obligations.SoundTimerIsNeverRead : Prop :=
  ∀ (i : Instr) (s : State) (b : Byte), ∃ t b', exec i s = .next t ∧ exec i { s with st := b } = .next { t with st := b' } ∧
    ((∃ x, i = .ldStVx x) → b' = t.st) ∧ ((¬ ∃ x, i = .ldStVx x) → b' = b)
end

