-- ==== Sys2Proof/Laws/Decode.lean ====
section
/-! SUPPORT. The fields of a word written in a format (30_encoding.md R91, R92), through the words' values: one lemma per
field per format, and the bytes of a word (20_memory.md R63). -/

namespace Sys2Proof

theorem famOf_toNat (op : Word) : (famOf op).toNat = op.toNat / 4096 % 16 := by
  simp [famOf, BitVec.extractLsb'_toNat, Nat.shiftRight_eq_div_pow]

theorem xOf_toNat (op : Word) : (xOf op).toNat = op.toNat / 256 % 16 := by
  simp [xOf, BitVec.extractLsb'_toNat, Nat.shiftRight_eq_div_pow]

theorem yOf_toNat (op : Word) : (yOf op).toNat = op.toNat / 16 % 16 := by
  simp [yOf, BitVec.extractLsb'_toNat, Nat.shiftRight_eq_div_pow]

theorem nOf_toNat (op : Word) : (nOf op).toNat = op.toNat % 16 := by
  simp [nOf, BitVec.extractLsb'_toNat]

theorem nnOf_toNat (op : Word) : (nnOf op).toNat = op.toNat % 256 := by
  simp [nnOf, BitVec.extractLsb'_toNat]

theorem nnnOf_toNat (op : Word) : (nnnOf op).toNat = op.toNat % 4096 := by
  simp [nnnOf, BitVec.extractLsb'_toNat]

theorem highByte_toNat (op : Word) : (highByte op).toNat = op.toNat / 256 % 256 := by
  simp [highByte, BitVec.extractLsb'_toNat, Nat.shiftRight_eq_div_pow]

theorem lowByte_toNat (op : Word) : (lowByte op).toNat = op.toNat % 256 := by
  simp [lowByte, BitVec.extractLsb'_toNat]

/-- The value of a concatenation. -/
theorem append_toNat {m n : Nat} (a : BitVec m) (b : BitVec n) : (a ++ b).toNat = a.toNat * 2 ^ n + b.toNat := by
  rw [BitVec.toNat_append, ← Nat.shiftLeft_add_eq_or_of_lt b.isLt, Nat.shiftLeft_eq]

theorem wordNNN_toNat (f : Nibble) (nnn : Addr12) : (wordNNN f nnn).toNat = f.toNat * 4096 + nnn.toNat :=
  append_toNat f nnn

theorem wordXNN_toNat (f x : Nibble) (nn : Byte) :
    (wordXNN f x nn).toNat = f.toNat * 4096 + x.toNat * 256 + nn.toNat := by
  rw [wordXNN, append_toNat, append_toNat]; omega

theorem wordXYN_toNat (f x y n : Nibble) :
    (wordXYN f x y n).toNat = f.toNat * 4096 + x.toNat * 256 + y.toNat * 16 + n.toNat := by
  rw [wordXYN, append_toNat, append_toNat, append_toNat]; omega

/-- The value of two bytes as a word, big-endian (R63). -/
theorem wordOfBytes_toNat (hi lo : Byte) : (wordOfBytes hi lo).toNat = hi.toNat * 256 + lo.toNat :=
  append_toNat hi lo

@[simp] theorem famOf_wordNNN (f : Nibble) (nnn : Addr12) : famOf (wordNNN f nnn) = f := by
  apply BitVec.eq_of_toNat_eq; rw [famOf_toNat, wordNNN_toNat]; omega

@[simp] theorem nnnOf_wordNNN (f : Nibble) (nnn : Addr12) : nnnOf (wordNNN f nnn) = nnn := by
  apply BitVec.eq_of_toNat_eq; rw [nnnOf_toNat, wordNNN_toNat]; omega

@[simp] theorem famOf_wordXNN (f x : Nibble) (nn : Byte) : famOf (wordXNN f x nn) = f := by
  apply BitVec.eq_of_toNat_eq; rw [famOf_toNat, wordXNN_toNat]; omega

@[simp] theorem xOf_wordXNN (f x : Nibble) (nn : Byte) : xOf (wordXNN f x nn) = x := by
  apply BitVec.eq_of_toNat_eq; rw [xOf_toNat, wordXNN_toNat]; omega

@[simp] theorem nnOf_wordXNN (f x : Nibble) (nn : Byte) : nnOf (wordXNN f x nn) = nn := by
  apply BitVec.eq_of_toNat_eq; rw [nnOf_toNat, wordXNN_toNat]; omega

@[simp] theorem famOf_wordXYN (f x y n : Nibble) : famOf (wordXYN f x y n) = f := by
  apply BitVec.eq_of_toNat_eq; rw [famOf_toNat, wordXYN_toNat]; omega

@[simp] theorem xOf_wordXYN (f x y n : Nibble) : xOf (wordXYN f x y n) = x := by
  apply BitVec.eq_of_toNat_eq; rw [xOf_toNat, wordXYN_toNat]; omega

@[simp] theorem yOf_wordXYN (f x y n : Nibble) : yOf (wordXYN f x y n) = y := by
  apply BitVec.eq_of_toNat_eq; rw [yOf_toNat, wordXYN_toNat]; omega

@[simp] theorem nOf_wordXYN (f x y n : Nibble) : nOf (wordXYN f x y n) = n := by
  apply BitVec.eq_of_toNat_eq; rw [nOf_toNat, wordXYN_toNat]; omega

/-- A word is its bytes, high byte first. -/
@[simp] theorem wordOfBytes_bytes (op : Word) : wordOfBytes (highByte op) (lowByte op) = op := by
  apply BitVec.eq_of_toNat_eq; rw [wordOfBytes_toNat, highByte_toNat, lowByte_toNat]; omega

/-- A word is the format `NNN` of its fields. -/
theorem wordNNN_fields (op : Word) : wordNNN (famOf op) (nnnOf op) = op := by
  apply BitVec.eq_of_toNat_eq; rw [wordNNN_toNat, famOf_toNat, nnnOf_toNat]; omega

/-- A word is the format `XNN` of its fields. -/
theorem wordXNN_fields (op : Word) : wordXNN (famOf op) (xOf op) (nnOf op) = op := by
  apply BitVec.eq_of_toNat_eq; rw [wordXNN_toNat, famOf_toNat, xOf_toNat, nnOf_toNat]; omega

/-- A word is the format `XYN` of its fields. -/
theorem wordXYN_fields (op : Word) : wordXYN (famOf op) (xOf op) (yOf op) (nOf op) = op := by
  apply BitVec.eq_of_toNat_eq; rw [wordXYN_toNat, famOf_toNat, xOf_toNat, yOf_toNat, nOf_toNat]; omega

/-- ANDing two words in format `NNN` ANDs their fields. -/
theorem wordNNN_and (f g : Nibble) (a b : Addr12) : wordNNN f a &&& wordNNN g b = wordNNN (f &&& g) (a &&& b) := by
  apply BitVec.eq_of_getLsbD_eq
  intro k _
  simp only [wordNNN, BitVec.getLsbD_and, BitVec.getLsbD_append]
  split <;> simp

/-- ANDing two words in format `XNN` ANDs their fields. -/
theorem wordXNN_and (f g x z : Nibble) (a b : Byte) :
    wordXNN f x a &&& wordXNN g z b = wordXNN (f &&& g) (x &&& z) (a &&& b) := by
  apply BitVec.eq_of_getLsbD_eq
  intro k _
  simp only [wordXNN, BitVec.getLsbD_and, BitVec.getLsbD_append]
  repeat' split
  all_goals simp

/-- ANDing two words in format `XYN` ANDs their fields. -/
theorem wordXYN_and (f g x z y w n m : Nibble) :
    wordXYN f x y n &&& wordXYN g z w m = wordXYN (f &&& g) (x &&& z) (y &&& w) (n &&& m) := by
  apply BitVec.eq_of_getLsbD_eq
  intro k _
  simp only [wordXYN, BitVec.getLsbD_and, BitVec.getLsbD_append]
  repeat' split
  all_goals simp

theorem and_zero_bits {w : Nat} (b : BitVec w) : b &&& 0 = 0 := BitVec.and_zero

theorem nibble_and_ones (f : Nibble) : f &&& 0xF = f := BitVec.and_allOnes (x := f)

theorem byte_and_ones (b : Byte) : b &&& 0xFF = b := BitVec.and_allOnes (x := b)

/-- What the mask 0xF000 keeps of a word in format `NNN`: its family. -/
theorem wordNNN_mask (f : Nibble) (nnn : Addr12) : wordNNN f nnn &&& 0xF000 = wordNNN f 0 := by
  rw [show (0xF000 : Word) = wordNNN 0xF 0 by decide, wordNNN_and, nibble_and_ones, and_zero_bits]

/-- What the mask 0xF000 keeps of a word in format `XNN`: its family. -/
theorem wordXNN_mask_family (f x : Nibble) (nn : Byte) : wordXNN f x nn &&& 0xF000 = wordXNN f 0 0 := by
  rw [show (0xF000 : Word) = wordXNN 0xF 0 0 by decide, wordXNN_and, nibble_and_ones, and_zero_bits, and_zero_bits]

/-- What the mask 0xF0FF keeps of a word in format `XNN`: its family and its low byte. -/
theorem wordXNN_mask (f x : Nibble) (nn : Byte) : wordXNN f x nn &&& 0xF0FF = wordXNN f 0 nn := by
  rw [show (0xF0FF : Word) = wordXNN 0xF 0 0xFF by decide, wordXNN_and, nibble_and_ones, byte_and_ones, and_zero_bits]

/-- What the mask 0xF000 keeps of a word in format `XYN`: its family. -/
theorem wordXYN_mask_family (f x y n : Nibble) : wordXYN f x y n &&& 0xF000 = wordXYN f 0 0 0 := by
  rw [show (0xF000 : Word) = wordXYN 0xF 0 0 0 by decide, wordXYN_and, nibble_and_ones, and_zero_bits, and_zero_bits,
    and_zero_bits]

/-- What the mask 0xF00F keeps of a word in format `XYN`: its family and its low nibble. -/
theorem wordXYN_mask (f x y n : Nibble) : wordXYN f x y n &&& 0xF00F = wordXYN f 0 0 n := by
  rw [show (0xF00F : Word) = wordXYN 0xF 0 0 0xF by decide, wordXYN_and, nibble_and_ones, nibble_and_ones,
    and_zero_bits, and_zero_bits]

end Sys2Proof
end

