-- ==== Sys2Proof/Laws/Display.lean ====
section
/-! SUPPORT. The laws of the display: a pixel after a write, displays with the same pixels, and everything the drawing of a
sprite does to pixels and collision flag (43_display.md R190, R191). -/

namespace Sys2Proof.Machine

/-- Reading any pixel after writing one. -/
theorem pixel_setPixel (d : Display) (r r' : Fin Config.dispRows) (c c' : Fin Config.dispCols) (b : Bool) :
    (d.setPixel r c b).pixel r' c' = if r' = r ∧ c' = c then b else d.pixel r' c' := by
  unfold Display.setPixel Display.pixel
  by_cases hr : r' = r
  · subst hr
    by_cases hc : c' = c
    · subst hc; simp
    · have : c.val ≠ c'.val := fun e => hc (Fin.ext e.symm)
      simp [hc, this]
  · have : r.val ≠ r'.val := fun e => hr (Fin.ext e.symm)
    simp [hr, this]

@[simp] theorem pixel_blank (r : Fin Config.dispRows) (c : Fin Config.dispCols) : Display.blank.pixel r c = false := by
  simp [Display.blank, Display.pixel]

/-- Displays with the same pixels are the same. -/
theorem display_ext {d d' : Display} (h : ∀ r c, d.pixel r c = d'.pixel r c) : d = d' := by
  apply Vector.ext; intro r hr
  apply Vector.ext; intro c hc
  exact h ⟨r, hr⟩ ⟨c, hc⟩

@[simp] theorem pixel_mergeKept (keep : Nat → Nat → Bool) (old drawn : Display) (r : Fin Config.dispRows)
    (c : Fin Config.dispCols) :
    (Display.mergeKept keep old drawn).pixel r c = if keep r.val c.val then old.pixel r c else drawn.pixel r c := by
  simp [Display.mergeKept, Display.pixel]

/-- Two columns less than the display's width apart wrap to different columns (R191 item 4). -/
theorem wrapCol_inj {v a b : Nat} (ha : a < 64) (hb : b < 64) (h : wrapCol (v + a) = wrapCol (v + b)) : a = b := by
  have : (v + a) % 64 = (v + b) % 64 := congrArg Fin.val h
  omega

/-- Two rows less than the display's height apart wrap to different rows (R191 item 4). -/
theorem wrapRow_inj {v a b : Nat} (ha : a < 32) (hb : b < 32) (h : wrapRow (v + a) = wrapRow (v + b)) : a = b := by
  have : (v + a) % 32 = (v + b) % 32 := congrArg Fin.val h
  omega

/-- The pixels and the flag after the first `k` bits of a sprite byte. -/
theorem drawCols_spec (vx vy row : Nat) (b : Byte) (g : Drawing) : ∀ k, k ≤ 8 →
    let g' := (List.range k).foldl (drawBit vx vy row b) g
    (∀ col < k, g'.disp.pixel (wrapRow (vy + row)) (wrapCol (vx + col)) =
      (g.disp.pixel (wrapRow (vy + row)) (wrapCol (vx + col)) ^^ b.getLsbD (7 - col))) ∧
    (∀ r c, (∀ col < k, ¬ (r = wrapRow (vy + row) ∧ c = wrapCol (vx + col))) → g'.disp.pixel r c = g.disp.pixel r c) ∧
    (g'.hit = true ↔ g.hit = true ∨ ∃ col < k, b.getLsbD (7 - col) = true ∧
      g.disp.pixel (wrapRow (vy + row)) (wrapCol (vx + col)) = true)
  | 0, _ => by simp
  | k + 1, hk => by
    have ih := drawCols_spec vx vy row b g k (by omega)
    simp only [List.range_succ, List.foldl_append, List.foldl_cons, List.foldl_nil] at ih ⊢
    obtain ⟨ih1, ih2, ih3⟩ := ih
    have hnew : ∀ col < k, ¬ (wrapRow (vy + row) = wrapRow (vy + row) ∧ wrapCol (vx + k) = wrapCol (vx + col)) :=
      fun col hc ⟨_, e⟩ => absurd (wrapCol_inj (by omega) (by omega) e) (by omega)
    refine ⟨fun col hc => ?_, fun r c h => ?_, ?_⟩
    · simp only [drawBit, pixel_setPixel]
      by_cases e : col = k
      · subst e; simp [ih2 _ _ hnew]
      · have : wrapCol (vx + col) ≠ wrapCol (vx + k) := fun h => e (wrapCol_inj (by omega) (by omega) h)
        simp [this, ih1 col (by omega)]
    · simp only [drawBit, pixel_setPixel]
      rw [if_neg (h k (by omega))]
      exact ih2 r c fun col hc => h col (by omega)
    · simp only [drawBit, Bool.or_eq_true, Bool.and_eq_true, ih2 _ _ hnew, ih3]
      constructor
      · rintro ((h | ⟨col, hc, h⟩) | h)
        · exact .inl h
        · exact .inr ⟨col, by omega, h⟩
        · exact .inr ⟨k, by omega, h⟩
      · rintro (h | ⟨col, hc, h⟩)
        · exact .inl (.inl h)
        · by_cases e : col = k
          · subst e; exact .inr h
          · exact .inl (.inr ⟨col, by omega, h⟩)

/-- The pixels and the flag after one sprite byte. -/
theorem drawRow_spec (vx vy row : Nat) (b : Byte) (g : Drawing) :
    let g' := drawRow vx vy row b g
    (∀ col < 8, g'.disp.pixel (wrapRow (vy + row)) (wrapCol (vx + col)) =
      (g.disp.pixel (wrapRow (vy + row)) (wrapCol (vx + col)) ^^ b.getLsbD (7 - col))) ∧
    (∀ r c, (∀ col < 8, ¬ (r = wrapRow (vy + row) ∧ c = wrapCol (vx + col))) → g'.disp.pixel r c = g.disp.pixel r c) ∧
    (g'.hit = true ↔ g.hit = true ∨ ∃ col < 8, b.getLsbD (7 - col) = true ∧
      g.disp.pixel (wrapRow (vy + row)) (wrapCol (vx + col)) = true) :=
  drawCols_spec vx vy row b g 8 (by omega)

/-- The pixels and the flag after the sprite rows `row`, `row + 1`, ... whose bytes are given. -/
theorem drawRows_spec (vx vy : Nat) : (bs : List Byte) → (row : Nat) → (g : Drawing) → row + bs.length ≤ 32 →
    let g' := drawRows vx vy row bs g
    (∀ j < bs.length, ∀ col < 8, g'.disp.pixel (wrapRow (vy + (row + j))) (wrapCol (vx + col)) =
      (g.disp.pixel (wrapRow (vy + (row + j))) (wrapCol (vx + col)) ^^ (bs.getD j 0).getLsbD (7 - col))) ∧
    (∀ r c, (∀ j < bs.length, ∀ col < 8, ¬ (r = wrapRow (vy + (row + j)) ∧ c = wrapCol (vx + col))) →
      g'.disp.pixel r c = g.disp.pixel r c) ∧
    (g'.hit = true ↔ g.hit = true ∨ ∃ j < bs.length, ∃ col < 8, (bs.getD j 0).getLsbD (7 - col) = true ∧
      g.disp.pixel (wrapRow (vy + (row + j))) (wrapCol (vx + col)) = true)
  | [], row, g, _ => by simp [drawRows]
  | b :: bs, row, g, h => by
    have hlen : row + (bs.length + 1) ≤ 32 := by simpa using h
    obtain ⟨c1, c2, c3⟩ := drawRow_spec vx vy row b g
    obtain ⟨r1, r2, r3⟩ := drawRows_spec vx vy bs (row + 1) (drawRow vx vy row b g) (by omega)
    simp only [drawRows]
    have hrow : ∀ j, row + 1 + j = row + (j + 1) := by omega
    simp only [hrow] at r1 r2 r3
    have other : ∀ j < bs.length, ∀ c, ∀ col < 8,
        ¬ (wrapRow (vy + (row + (j + 1))) = wrapRow (vy + row) ∧ c = wrapCol (vx + col)) :=
      fun j hj c col hc ⟨e, _⟩ => absurd (wrapRow_inj (by omega) (by omega) e) (by omega)
    refine ⟨fun j hj col hc => ?_, fun r c hrc => ?_, ?_⟩
    · cases j with
      | zero =>
        rw [r2 _ _ fun j' hj' col' hc' ⟨e, _⟩ =>
          absurd (wrapRow_inj (by simp at hj; omega) (by omega) e) (by omega)]
        simpa using c1 col hc
      | succ j =>
        have hj' : j < bs.length := by simpa using hj
        rw [r1 j hj' col hc, c2 _ _ fun col' hc' => other j hj' _ col' hc']
        simp
    · rw [r2 r c fun j hj col hc => hrc (j + 1) (by simpa using hj) col hc]
      exact c2 r c fun col hc => by simpa using hrc 0 (by simp) col hc
    · rw [r3, c3]
      constructor
      · rintro ((hh | ⟨col, hc, hb, hp⟩) | ⟨j, hj, col, hc, hb, hp⟩)
        · exact .inl hh
        · exact .inr ⟨0, by simp, col, hc, by simpa using hb, by simpa using hp⟩
        · rw [c2 _ _ fun col' hc' => other j hj _ col' hc'] at hp
          exact .inr ⟨j + 1, by simpa using hj, col, hc, by simpa using hb, hp⟩
      · rintro (hh | ⟨j, hj, col, hc, hb, hp⟩)
        · exact .inl (.inl hh)
        · cases j with
          | zero => exact .inl (.inr ⟨col, hc, by simpa using hb, by simpa using hp⟩)
          | succ j =>
            have hj' : j < bs.length := by simpa using hj
            refine .inr ⟨j, hj', col, hc, by simpa using hb, ?_⟩
            rw [c2 _ _ fun col' hc' => other j hj' _ col' hc']
            exact hp

/-- Everything the drawing of a sprite does: the pixels under it are XORed with its bits, every other pixel stays, and the
flag is set iff a sprite bit 1 met a pixel 1 (R190). -/
theorem drawSprite_spec (vx vy : Nat) (bs : List Byte) (d : Display) (h : bs.length ≤ 32) :
    let g := drawSprite vx vy bs d
    (∀ j < bs.length, ∀ col < 8, g.disp.pixel (wrapRow (vy + j)) (wrapCol (vx + col)) =
      (d.pixel (wrapRow (vy + j)) (wrapCol (vx + col)) ^^ (bs.getD j 0).getLsbD (7 - col))) ∧
    (∀ r c, (∀ j < bs.length, ∀ col < 8, ¬ (r = wrapRow (vy + j) ∧ c = wrapCol (vx + col))) →
      g.disp.pixel r c = d.pixel r c) ∧
    (g.hit = true ↔ ∃ j < bs.length, ∃ col < 8, (bs.getD j 0).getLsbD (7 - col) = true ∧
      d.pixel (wrapRow (vy + j)) (wrapCol (vx + col)) = true) := by
  simpa [drawSprite] using drawRows_spec vx vy bs 0 { disp := d, hit := false } (by omega)

end Sys2Proof.Machine
end

