-- ==== Sys2Proof/Laws/Memory.lean ====
section
/-! SUPPORT. The laws of memory: a read after a write, and that every operation keeps the canonical form. -/

namespace Sys2Proof.Machine

theorem wfFrom_mono {lo lo' : Nat} (h : lo' ≤ lo) : {m : Memory} → m.wfFrom lo = true → m.wfFrom lo' = true
  | [], _ => rfl
  | (k, v) :: rest, hm => by
    simp only [Memory.wfFrom, Bool.and_eq_true, decide_eq_true_eq] at hm ⊢
    exact ⟨⟨⟨by omega, hm.1.1.2⟩, hm.1.2⟩, hm.2⟩

/-- Below its first address a canonical memory reads as after power-on. -/
theorem read_below {lo a : Nat} (ha : a < lo) : {m : Memory} → m.wfFrom lo = true → m.read a = powerOnByte a
  | [], _ => rfl
  | (k, v) :: rest, hm => by
    simp only [Memory.wfFrom, Bool.and_eq_true, decide_eq_true_eq] at hm
    have hk : a ≠ k := by omega
    simp only [Memory.read, if_neg hk]
    exact read_below (by omega) hm.2

theorem read_putCell (a a' : Nat) (b : Byte) (rest : Memory)
    (h : rest.read a = powerOnByte a) :
    (putCell a b rest).read a' = if a' = a then b else rest.read a' := by
  unfold putCell
  by_cases hb : b = powerOnByte a
  · rw [if_pos hb]
    by_cases ha : a' = a
    · subst ha; rw [if_pos rfl, h, hb]
    · rw [if_neg ha]
  · rw [if_neg hb]; rfl

theorem read_write_from {lo : Nat} (a a' : Nat) (b : Byte) :
    {m : Memory} → m.wfFrom lo = true → (m.write a b).read a' = if a' = a then b else m.read a'
  | [], _ => read_putCell a a' b [] rfl
  | (k, v) :: rest, hm => by
    have hm' := hm
    simp only [Memory.wfFrom, Bool.and_eq_true, decide_eq_true_eq] at hm
    simp only [Memory.write]
    by_cases h1 : a < k
    · rw [if_pos h1]
      refine read_putCell a a' b _ ?_
      simp only [Memory.read, if_neg (show a ≠ k by omega)]
      exact read_below (by omega) hm.2
    · rw [if_neg h1]
      by_cases h2 : a = k
      · subst h2
        rw [if_pos rfl, read_putCell a a' b rest (read_below (by omega) hm.2)]
        by_cases h3 : a' = a
        · simp [h3]
        · simp [h3, Memory.read]
      · rw [if_neg h2]
        simp only [Memory.read]
        by_cases h3 : a' = k
        · simp [h3, show k ≠ a by omega]
        · simp only [if_neg h3]
          exact read_write_from a a' b hm.2

/-- A read after a write gives the byte written at that address and leaves every other address alone. -/
theorem read_write {m : Memory} (hm : m.wf = true) (a a' : Nat) (b : Byte) :
    (m.write a b).read a' = if a' = a then b else m.read a' := read_write_from a a' b hm

theorem wfFrom_putCell {lo a : Nat} {b : Byte} {rest : Memory} (hlo : lo ≤ a) (ha : addrInRange a = true)
    (hr : rest.wfFrom (a + 1) = true) : (putCell a b rest).wfFrom lo = true := by
  unfold putCell
  by_cases hb : b = powerOnByte a
  · rw [if_pos hb]; exact wfFrom_mono (by omega) hr
  · rw [if_neg hb]
    simp [Memory.wfFrom, hlo, ha, hb, hr]

theorem wfFrom_write {lo a : Nat} {b : Byte} (hlo : lo ≤ a) (ha : addrInRange a = true) :
    {m : Memory} → m.wfFrom lo = true → (m.write a b).wfFrom lo = true
  | [], _ => wfFrom_putCell hlo ha rfl
  | (k, v) :: rest, hm => by
    have hm' := hm
    simp only [Memory.wfFrom, Bool.and_eq_true, decide_eq_true_eq] at hm
    simp only [Memory.write]
    by_cases h1 : a < k
    · rw [if_pos h1]
      refine wfFrom_putCell hlo ha ?_
      simp only [Memory.wfFrom, Bool.and_eq_true, decide_eq_true_eq]
      exact ⟨⟨⟨by omega, hm.1.1.2⟩, hm.1.2⟩, hm.2⟩
    · rw [if_neg h1]
      by_cases h2 : a = k
      · subst h2; rw [if_pos rfl]; exact wfFrom_putCell hlo ha hm.2
      · rw [if_neg h2]
        simp only [Memory.wfFrom, Bool.and_eq_true, decide_eq_true_eq]
        exact ⟨hm.1, wfFrom_write (by omega) ha hm.2⟩

/-- Writing a byte in range keeps the canonical form. -/
theorem wf_write {m : Memory} (hm : m.wf = true) {a : Nat} (ha : addrInRange a = true) (b : Byte) :
    (m.write a b).wf = true := wfFrom_write (Nat.zero_le a) ha hm

theorem addrInRange_iff (a : Nat) : addrInRange a = true ↔ a < 4096 := decide_eq_true_iff

theorem blockInRange_iff (a n : Nat) : blockInRange a n = true ↔ n = 0 ∨ a + n ≤ 4096 := by
  unfold blockInRange
  rw [Bool.or_eq_true, beq_iff_eq]
  exact or_congr Iff.rfl decide_eq_true_iff

theorem blockInRange_false_iff (a n : Nat) : blockInRange a n = false ↔ n ≠ 0 ∧ 4096 < a + n := by
  rw [← Bool.not_eq_true, blockInRange_iff]
  omega

/-- Writing a block in range keeps the canonical form. -/
theorem wf_writeBytes : (bs : List Byte) → {m : Memory} → m.wf = true → {a : Nat} →
    (bs = [] ∨ a + bs.length ≤ 4096) → (m.writeBytes a bs).wf = true
  | [], _, hm, _, _ => hm
  | b :: bs, m, hm, a, h => by
    have h' : a + (bs.length + 1) ≤ 4096 := by simpa using h
    exact wf_writeBytes bs (wf_write hm ((addrInRange_iff a).2 (by omega)) b) (.inr (by omega))

/-- What a block store that faulted leaves is canonical. -/
theorem wf_writeSome (keep : Nat → Bool) : (bs : List Byte) → {m : Memory} → m.wf = true → {a : Nat} →
    (Memory.writeSome keep m a bs).wf = true
  | [], _, hm, _ => hm
  | b :: bs, m, hm, a => by
    refine wf_writeSome keep bs ?_
    by_cases h : (addrInRange a && !keep a) = true
    · rw [if_pos h]
      simp only [Bool.and_eq_true] at h
      exact wf_write hm h.1 b
    · rw [if_neg h]; exact hm

/-- Reading after a block write: the block's bytes inside it, the old byte outside. -/
theorem read_writeBytes : (bs : List Byte) → {m : Memory} → m.wf = true → {a : Nat} →
    (bs = [] ∨ a + bs.length ≤ 4096) → (a' : Nat) →
    (m.writeBytes a bs).read a' = if a ≤ a' then bs.getD (a' - a) (m.read a') else m.read a'
  | [], m, _, a, _, a' => by simp [Memory.writeBytes]
  | b :: bs, m, hm, a, h, a' => by
    have h' : a + (bs.length + 1) ≤ 4096 := by simpa using h
    have ha : addrInRange a = true := (addrInRange_iff a).2 (by omega)
    rw [Memory.writeBytes, read_writeBytes bs (wf_write hm ha b) (.inr (by omega)), read_write hm]
    by_cases h1 : a' = a
    · subst h1; simp
    · by_cases h2 : a ≤ a'
      · have h3 : a + 1 ≤ a' := by omega
        have h4 : a' - a = (a' - (a + 1)) + 1 := by omega
        simp [h1, h2, h3, h4]
      · simp [h1, h2, show ¬ a + 1 ≤ a' by omega]

/-- Reading after a block store that faulted: the old byte, or, inside the block and in range, the byte stored. -/
theorem read_writeSome (keep : Nat → Bool) : (bs : List Byte) → {m : Memory} → m.wf = true → {a : Nat} → (a' : Nat) →
    (Memory.writeSome keep m a bs).read a' =
      if a ≤ a' ∧ addrInRange a' = true ∧ keep a' = false then bs.getD (a' - a) (m.read a') else m.read a'
  | [], m, _, a, a' => by simp [Memory.writeSome]
  | b :: bs, m, hm, a, a' => by
    rw [Memory.writeSome]
    by_cases h : (addrInRange a && !keep a) = true
    · rw [if_pos h]
      simp only [Bool.and_eq_true, Bool.not_eq_true'] at h
      rw [read_writeSome keep bs (wf_write hm h.1 b), read_write hm]
      by_cases h1 : a' = a
      · subst h1; simp [h]
      · by_cases h2 : a ≤ a'
        · have h4 : a' - a = (a' - (a + 1)) + 1 := by omega
          simp [h1, h2, h4, show a + 1 ≤ a' by omega]
        · simp [h1, h2, show ¬ a + 1 ≤ a' by omega]
    · rw [if_neg h, read_writeSome keep bs hm]
      simp only [Bool.and_eq_true, Bool.not_eq_true', not_and] at h
      by_cases h1 : a' = a
      · subst h1
        by_cases h5 : addrInRange a' = true
        · simp [h5, h h5]
        · simp [h5]
      · by_cases h2 : a ≤ a'
        · have h4 : a' - a = (a' - (a + 1)) + 1 := by omega
          simp [h2, h4, show a + 1 ≤ a' by omega]
        · simp [h2, show ¬ a + 1 ≤ a' by omega]

/-- The bytes of a block, by position. -/
theorem readBytes_getElem? (m : Memory) : (n : Nat) → (a k : Nat) →
    (m.readBytes a n)[k]? = if k < n then some (m.read (a + k)) else none
  | 0, _, k => by simp [Memory.readBytes]
  | n + 1, a, 0 => by simp [Memory.readBytes]
  | n + 1, a, k + 1 => by
    simp only [Memory.readBytes, List.getElem?_cons_succ, readBytes_getElem? m n (a + 1) k]
    rw [show a + 1 + k = a + (k + 1) by omega]
    simp

@[simp] theorem readBytes_length (m : Memory) : (n : Nat) → (a : Nat) → (m.readBytes a n).length = n
  | 0, _ => rfl
  | n + 1, a => by simp [Memory.readBytes, readBytes_length m n (a + 1)]

/-- Two canonical memories that read the same everywhere are the same list. -/
theorem memory_ext_from {lo : Nat} : {m m' : Memory} → m.wfFrom lo = true → m'.wfFrom lo = true →
    (∀ a, m.read a = m'.read a) → m = m'
  | [], [], _, _, _ => rfl
  | [], (k, v) :: rest, _, h', e => by
    simp only [Memory.wfFrom, Bool.and_eq_true, decide_eq_true_eq] at h'
    exact absurd (by simpa [Memory.read] using (e k).symm) h'.1.2
  | (k, v) :: rest, [], h, _, e => by
    simp only [Memory.wfFrom, Bool.and_eq_true, decide_eq_true_eq] at h
    exact absurd (by simpa [Memory.read] using e k) h.1.2
  | (k, v) :: rest, (k', v') :: rest', h, h', e => by
    simp only [Memory.wfFrom, Bool.and_eq_true, decide_eq_true_eq] at h h'
    have hk : k = k' := by
      rcases Nat.lt_trichotomy k k' with hlt | heq | hgt
      · have := e k
        simp only [Memory.read, if_neg (show k ≠ k' by omega), if_true] at this
        rw [read_below (show k < k' + 1 by omega) h'.2] at this
        exact absurd this h.1.2
      · exact heq
      · have := e k'
        simp only [Memory.read, if_neg (show k' ≠ k by omega), if_true] at this
        rw [read_below (show k' < k + 1 by omega) h.2] at this
        exact absurd this.symm h'.1.2
    subst hk
    have hv : v = v' := by simpa [Memory.read] using e k
    subst hv
    have : rest = rest' := by
      refine memory_ext_from h.2 h'.2 fun a => ?_
      by_cases ha : a = k
      · subst ha
        rw [read_below (by omega) h.2, read_below (by omega) h'.2]
      · simpa [Memory.read, ha] using e a
    rw [this]

/-- Two canonical memories that read the same everywhere are the same list. -/
theorem memory_ext {m m' : Memory} (h : m.wf = true) (h' : m'.wf = true) (e : ∀ a, m.read a = m'.read a) : m = m' :=
  memory_ext_from h h' e

end Sys2Proof.Machine
end

