-- ==== Sys2Proof/Laws/State.lean ====
section
/-! SUPPORT. One lemma per field per update: what each plain update of the state leaves in every field, so that no later
proof unfolds a record update. -/

namespace Sys2Proof.Machine

variable (s : State)

/-! `State.setV` -/

@[simp] theorem State.setV_v (x : Reg) (b : Byte) : (s.setV x b).v = s.v.set x.toNat b x.isLt := rfl
@[simp] theorem State.setV_i (x : Reg) (b : Byte) : (s.setV x b).i = s.i := rfl
@[simp] theorem State.setV_pc (x : Reg) (b : Byte) : (s.setV x b).pc = s.pc := rfl
@[simp] theorem State.setV_sp (x : Reg) (b : Byte) : (s.setV x b).sp = s.sp := rfl
@[simp] theorem State.setV_stack (x : Reg) (b : Byte) : (s.setV x b).stack = s.stack := rfl
@[simp] theorem State.setV_dt (x : Reg) (b : Byte) : (s.setV x b).dt = s.dt := rfl
@[simp] theorem State.setV_st (x : Reg) (b : Byte) : (s.setV x b).st = s.st := rfl
@[simp] theorem State.setV_disp (x : Reg) (b : Byte) : (s.setV x b).disp = s.disp := rfl
@[simp] theorem State.setV_keys (x : Reg) (b : Byte) : (s.setV x b).keys = s.keys := rfl
@[simp] theorem State.setV_run (x : Reg) (b : Byte) : (s.setV x b).run = s.run := rfl
@[simp] theorem State.setV_faultCause (x : Reg) (b : Byte) : (s.setV x b).faultCause = s.faultCause := rfl
@[simp] theorem State.setV_faultPc (x : Reg) (b : Byte) : (s.setV x b).faultPc = s.faultPc := rfl
@[simp] theorem State.setV_faultOpcode (x : Reg) (b : Byte) : (s.setV x b).faultOpcode = s.faultOpcode := rfl
@[simp] theorem State.setV_mem (x : Reg) (b : Byte) : (s.setV x b).mem = s.mem := rfl
@[simp] theorem State.setV_draws (x : Reg) (b : Byte) : (s.setV x b).draws = s.draws := rfl

/-! `State.setVFlag` -/

@[simp] theorem State.setVFlag_i (x : Reg) (b : Byte) (f : Bool) : (s.setVFlag x b f).i = s.i := rfl
@[simp] theorem State.setVFlag_pc (x : Reg) (b : Byte) (f : Bool) : (s.setVFlag x b f).pc = s.pc := rfl
@[simp] theorem State.setVFlag_sp (x : Reg) (b : Byte) (f : Bool) : (s.setVFlag x b f).sp = s.sp := rfl
@[simp] theorem State.setVFlag_stack (x : Reg) (b : Byte) (f : Bool) : (s.setVFlag x b f).stack = s.stack := rfl
@[simp] theorem State.setVFlag_dt (x : Reg) (b : Byte) (f : Bool) : (s.setVFlag x b f).dt = s.dt := rfl
@[simp] theorem State.setVFlag_st (x : Reg) (b : Byte) (f : Bool) : (s.setVFlag x b f).st = s.st := rfl
@[simp] theorem State.setVFlag_disp (x : Reg) (b : Byte) (f : Bool) : (s.setVFlag x b f).disp = s.disp := rfl
@[simp] theorem State.setVFlag_keys (x : Reg) (b : Byte) (f : Bool) : (s.setVFlag x b f).keys = s.keys := rfl
@[simp] theorem State.setVFlag_run (x : Reg) (b : Byte) (f : Bool) : (s.setVFlag x b f).run = s.run := rfl
@[simp] theorem State.setVFlag_faultCause (x : Reg) (b : Byte) (f : Bool) : (s.setVFlag x b f).faultCause = s.faultCause := rfl
@[simp] theorem State.setVFlag_faultPc (x : Reg) (b : Byte) (f : Bool) : (s.setVFlag x b f).faultPc = s.faultPc := rfl
@[simp] theorem State.setVFlag_faultOpcode (x : Reg) (b : Byte) (f : Bool) : (s.setVFlag x b f).faultOpcode = s.faultOpcode := rfl
@[simp] theorem State.setVFlag_mem (x : Reg) (b : Byte) (f : Bool) : (s.setVFlag x b f).mem = s.mem := rfl
@[simp] theorem State.setVFlag_draws (x : Reg) (b : Byte) (f : Bool) : (s.setVFlag x b f).draws = s.draws := rfl

/-! `State.setI` -/

@[simp] theorem State.setI_v (w : Word) : (s.setI w).v = s.v := rfl
@[simp] theorem State.setI_i (w : Word) : (s.setI w).i = w := rfl
@[simp] theorem State.setI_pc (w : Word) : (s.setI w).pc = s.pc := rfl
@[simp] theorem State.setI_sp (w : Word) : (s.setI w).sp = s.sp := rfl
@[simp] theorem State.setI_stack (w : Word) : (s.setI w).stack = s.stack := rfl
@[simp] theorem State.setI_dt (w : Word) : (s.setI w).dt = s.dt := rfl
@[simp] theorem State.setI_st (w : Word) : (s.setI w).st = s.st := rfl
@[simp] theorem State.setI_disp (w : Word) : (s.setI w).disp = s.disp := rfl
@[simp] theorem State.setI_keys (w : Word) : (s.setI w).keys = s.keys := rfl
@[simp] theorem State.setI_run (w : Word) : (s.setI w).run = s.run := rfl
@[simp] theorem State.setI_faultCause (w : Word) : (s.setI w).faultCause = s.faultCause := rfl
@[simp] theorem State.setI_faultPc (w : Word) : (s.setI w).faultPc = s.faultPc := rfl
@[simp] theorem State.setI_faultOpcode (w : Word) : (s.setI w).faultOpcode = s.faultOpcode := rfl
@[simp] theorem State.setI_mem (w : Word) : (s.setI w).mem = s.mem := rfl
@[simp] theorem State.setI_draws (w : Word) : (s.setI w).draws = s.draws := rfl

/-! `State.jump` -/

@[simp] theorem State.jump_v (w : Word) : (s.jump w).v = s.v := rfl
@[simp] theorem State.jump_i (w : Word) : (s.jump w).i = s.i := rfl
@[simp] theorem State.jump_pc (w : Word) : (s.jump w).pc = w := rfl
@[simp] theorem State.jump_sp (w : Word) : (s.jump w).sp = s.sp := rfl
@[simp] theorem State.jump_stack (w : Word) : (s.jump w).stack = s.stack := rfl
@[simp] theorem State.jump_dt (w : Word) : (s.jump w).dt = s.dt := rfl
@[simp] theorem State.jump_st (w : Word) : (s.jump w).st = s.st := rfl
@[simp] theorem State.jump_disp (w : Word) : (s.jump w).disp = s.disp := rfl
@[simp] theorem State.jump_keys (w : Word) : (s.jump w).keys = s.keys := rfl
@[simp] theorem State.jump_run (w : Word) : (s.jump w).run = s.run := rfl
@[simp] theorem State.jump_faultCause (w : Word) : (s.jump w).faultCause = s.faultCause := rfl
@[simp] theorem State.jump_faultPc (w : Word) : (s.jump w).faultPc = s.faultPc := rfl
@[simp] theorem State.jump_faultOpcode (w : Word) : (s.jump w).faultOpcode = s.faultOpcode := rfl
@[simp] theorem State.jump_mem (w : Word) : (s.jump w).mem = s.mem := rfl
@[simp] theorem State.jump_draws (w : Word) : (s.jump w).draws = s.draws := rfl

/-! `State.advance` -/

@[simp] theorem State.advance_v : (s.advance).v = s.v := rfl
@[simp] theorem State.advance_i : (s.advance).i = s.i := rfl
@[simp] theorem State.advance_pc : (s.advance).pc = s.pc + 2 := rfl
@[simp] theorem State.advance_sp : (s.advance).sp = s.sp := rfl
@[simp] theorem State.advance_stack : (s.advance).stack = s.stack := rfl
@[simp] theorem State.advance_dt : (s.advance).dt = s.dt := rfl
@[simp] theorem State.advance_st : (s.advance).st = s.st := rfl
@[simp] theorem State.advance_disp : (s.advance).disp = s.disp := rfl
@[simp] theorem State.advance_keys : (s.advance).keys = s.keys := rfl
@[simp] theorem State.advance_run : (s.advance).run = s.run := rfl
@[simp] theorem State.advance_faultCause : (s.advance).faultCause = s.faultCause := rfl
@[simp] theorem State.advance_faultPc : (s.advance).faultPc = s.faultPc := rfl
@[simp] theorem State.advance_faultOpcode : (s.advance).faultOpcode = s.faultOpcode := rfl
@[simp] theorem State.advance_mem : (s.advance).mem = s.mem := rfl
@[simp] theorem State.advance_draws : (s.advance).draws = s.draws := rfl

/-! `State.latchFault` -/

@[simp] theorem State.latchFault_v (c : FaultCause) (a op : Word) : (s.latchFault c a op).v = s.v := rfl
@[simp] theorem State.latchFault_i (c : FaultCause) (a op : Word) : (s.latchFault c a op).i = s.i := rfl
@[simp] theorem State.latchFault_pc (c : FaultCause) (a op : Word) : (s.latchFault c a op).pc = s.pc := rfl
@[simp] theorem State.latchFault_sp (c : FaultCause) (a op : Word) : (s.latchFault c a op).sp = s.sp := rfl
@[simp] theorem State.latchFault_stack (c : FaultCause) (a op : Word) : (s.latchFault c a op).stack = s.stack := rfl
@[simp] theorem State.latchFault_dt (c : FaultCause) (a op : Word) : (s.latchFault c a op).dt = s.dt := rfl
@[simp] theorem State.latchFault_st (c : FaultCause) (a op : Word) : (s.latchFault c a op).st = s.st := rfl
@[simp] theorem State.latchFault_disp (c : FaultCause) (a op : Word) : (s.latchFault c a op).disp = s.disp := rfl
@[simp] theorem State.latchFault_keys (c : FaultCause) (a op : Word) : (s.latchFault c a op).keys = s.keys := rfl
@[simp] theorem State.latchFault_run (c : FaultCause) (a op : Word) : (s.latchFault c a op).run = .faulted := rfl
@[simp] theorem State.latchFault_faultCause (c : FaultCause) (a op : Word) : (s.latchFault c a op).faultCause = c := rfl
@[simp] theorem State.latchFault_faultPc (c : FaultCause) (a op : Word) : (s.latchFault c a op).faultPc = a := rfl
@[simp] theorem State.latchFault_faultOpcode (c : FaultCause) (a op : Word) : (s.latchFault c a op).faultOpcode = op := rfl
@[simp] theorem State.latchFault_mem (c : FaultCause) (a op : Word) : (s.latchFault c a op).mem = s.mem := rfl
@[simp] theorem State.latchFault_draws (c : FaultCause) (a op : Word) : (s.latchFault c a op).draws = s.draws := rfl

/-! `State.raise` -/

@[simp] theorem State.raise_v (c : FaultCause) (op : Word) : (s.raise c op).v = s.v := rfl
@[simp] theorem State.raise_i (c : FaultCause) (op : Word) : (s.raise c op).i = s.i := rfl
@[simp] theorem State.raise_pc (c : FaultCause) (op : Word) : (s.raise c op).pc = if s.keeps .pc then s.pc - 2 else s.pc := rfl
@[simp] theorem State.raise_sp (c : FaultCause) (op : Word) : (s.raise c op).sp = s.sp := rfl
@[simp] theorem State.raise_stack (c : FaultCause) (op : Word) : (s.raise c op).stack = s.stack := rfl
@[simp] theorem State.raise_dt (c : FaultCause) (op : Word) : (s.raise c op).dt = s.dt := rfl
@[simp] theorem State.raise_st (c : FaultCause) (op : Word) : (s.raise c op).st = s.st := rfl
@[simp] theorem State.raise_disp (c : FaultCause) (op : Word) : (s.raise c op).disp = s.disp := rfl
@[simp] theorem State.raise_keys (c : FaultCause) (op : Word) : (s.raise c op).keys = s.keys := rfl
@[simp] theorem State.raise_run (c : FaultCause) (op : Word) : (s.raise c op).run = .faulted := rfl
@[simp] theorem State.raise_faultCause (c : FaultCause) (op : Word) : (s.raise c op).faultCause = c := rfl
@[simp] theorem State.raise_faultPc (c : FaultCause) (op : Word) : (s.raise c op).faultPc = s.pc - 2 := rfl
@[simp] theorem State.raise_faultOpcode (c : FaultCause) (op : Word) : (s.raise c op).faultOpcode = op := rfl
@[simp] theorem State.raise_mem (c : FaultCause) (op : Word) : (s.raise c op).mem = s.mem := rfl
@[simp] theorem State.raise_draws (c : FaultCause) (op : Word) : (s.raise c op).draws = s.draws + 1 := rfl

/-! `State.skipIf` -/

@[simp] theorem State.skipIf_v (c : Bool) : (s.skipIf c).v = s.v := by cases c <;> rfl
@[simp] theorem State.skipIf_i (c : Bool) : (s.skipIf c).i = s.i := by cases c <;> rfl
@[simp] theorem State.skipIf_pc (c : Bool) : (s.skipIf c).pc = if c then s.pc + 2 else s.pc := by
  cases c <;> rfl
@[simp] theorem State.skipIf_sp (c : Bool) : (s.skipIf c).sp = s.sp := by cases c <;> rfl
@[simp] theorem State.skipIf_stack (c : Bool) : (s.skipIf c).stack = s.stack := by cases c <;> rfl
@[simp] theorem State.skipIf_dt (c : Bool) : (s.skipIf c).dt = s.dt := by cases c <;> rfl
@[simp] theorem State.skipIf_st (c : Bool) : (s.skipIf c).st = s.st := by cases c <;> rfl
@[simp] theorem State.skipIf_disp (c : Bool) : (s.skipIf c).disp = s.disp := by cases c <;> rfl
@[simp] theorem State.skipIf_keys (c : Bool) : (s.skipIf c).keys = s.keys := by cases c <;> rfl
@[simp] theorem State.skipIf_run (c : Bool) : (s.skipIf c).run = s.run := by cases c <;> rfl
@[simp] theorem State.skipIf_faultCause (c : Bool) : (s.skipIf c).faultCause = s.faultCause := by cases c <;> rfl
@[simp] theorem State.skipIf_faultPc (c : Bool) : (s.skipIf c).faultPc = s.faultPc := by cases c <;> rfl
@[simp] theorem State.skipIf_faultOpcode (c : Bool) : (s.skipIf c).faultOpcode = s.faultOpcode := by cases c <;> rfl
@[simp] theorem State.skipIf_mem (c : Bool) : (s.skipIf c).mem = s.mem := by cases c <;> rfl
@[simp] theorem State.skipIf_draws (c : Bool) : (s.skipIf c).draws = s.draws := by cases c <;> rfl

end Sys2Proof.Machine
end

