-- ==== Sys2Proof/Laws/Registers.lean ====
section
/-! SUPPORT. Reading a register after writing one (10_state.md R20), and two states with the same registers. -/

namespace Sys2Proof.Machine

theorem toNat_ne_of_ne {w : Nat} {x y : BitVec w} (h : x ≠ y) : x.toNat ≠ y.toNat :=
  fun e => h (BitVec.eq_of_toNat_eq e)

theorem ofNat_toNat_reg (r : Reg) : BitVec.ofNat 4 r.toNat = r := by simp

/-- Reading any register after writing one. -/
theorem State.getV_setV (s : State) (x r : Reg) (b : Byte) :
    (s.setV x b).getV r = if r = x then b else s.getV r := by
  unfold State.getV State.setV
  by_cases h : r = x
  · subst h; simp
  · have := toNat_ne_of_ne h
    simp [h, Ne.symm this]

@[simp] theorem State.getV_setV_same (s : State) (x : Reg) (b : Byte) : (s.setV x b).getV x = b := by
  simp [State.getV_setV]

theorem State.getV_setV_ne (s : State) {x r : Reg} (h : r ≠ x) (b : Byte) : (s.setV x b).getV r = s.getV r := by
  simp [State.getV_setV, h]

/-- Reading any register after a result and a flag have been written: the flag is what VF holds (R173). -/
theorem State.getV_setVFlag (s : State) (x r : Reg) (b : Byte) (f : Bool) :
    (s.setVFlag x b f).getV r = if r = regF then flagByte f else if r = x then b else s.getV r := by
  simp only [State.setVFlag, State.getV_setV]

/-- `getV` sees only the register file. -/
theorem State.getV_congr {s t : State} (h : t.v = s.v) (r : Reg) : t.getV r = s.getV r := by
  simp only [State.getV, h]

/-- The register file as `getV` reads it. -/
theorem State.v_getElem (s : State) (k : Nat) (h : k < 16) : s.v[k] = s.getV (BitVec.ofNat 4 k) := by
  have : (BitVec.ofNat 4 k).toNat = k := by simp; omega
  simp only [State.getV, this]

/-- Two states whose registers all read the same have the same register file. -/
theorem State.v_ext {s t : State} (h : ∀ r, t.getV r = s.getV r) : t.v = s.v := by
  apply Vector.ext
  intro k hk
  rw [State.v_getElem, State.v_getElem, h]

@[simp] theorem State.getV_jump (s : State) (w : Word) (r : Reg) : (s.jump w).getV r = s.getV r := rfl
@[simp] theorem State.getV_advance (s : State) (r : Reg) : (s.advance).getV r = s.getV r := rfl
@[simp] theorem State.getV_setI (s : State) (w : Word) (r : Reg) : (s.setI w).getV r = s.getV r := rfl
@[simp] theorem State.getV_raise (s : State) (c : FaultCause) (op : Word) (r : Reg) :
    (s.raise c op).getV r = s.getV r := rfl
@[simp] theorem State.getV_latchFault (s : State) (c : FaultCause) (a op : Word) (r : Reg) :
    (s.latchFault c a op).getV r = s.getV r := rfl
@[simp] theorem State.getV_skipIf (s : State) (c : Bool) (r : Reg) : (s.skipIf c).getV r = s.getV r :=
  State.getV_congr (by simp) r

end Sys2Proof.Machine
end

