-- ==== Sys2Proof/Laws/Ops.lean ====
section
/-! SUPPORT. One lemma per shared operation that says what it can do; proofs cite these instead of unfolding. -/

namespace Sys2Proof.Machine

/-- The fetch inside memory: the two bytes, big-endian (20_memory.md R63). -/
theorem State.fetch_inRange {s : State} (h : s.pc.toNat ≤ 0xFFE) :
    s.fetch = some (wordOfBytes (s.mem.read s.pc.toNat) (s.mem.read (s.pc.toNat + 1))) := by
  have h1 : addrInRange s.pc.toNat = true := (addrInRange_iff _).2 (by omega)
  have h2 : addrInRange (s.pc.toNat + 1) = true := (addrInRange_iff _).2 (by omega)
  simp [State.fetch, State.memRead, h1, h2]

/-- The fetch past 0xFFE reaches an address that does not exist (40_step_cycle.md R123). -/
theorem State.fetch_outOfRange {s : State} (h : 0xFFF ≤ s.pc.toNat) : s.fetch = none := by
  have h2 : ¬ addrInRange (s.pc.toNat + 1) = true := fun e => absurd ((addrInRange_iff _).1 e) (by omega)
  simp only [State.fetch, State.memRead, if_neg h2]
  split <;> simp_all

/-- A push with room: the entry at `sp`, and `sp` one more (41_control_flow.md R143). -/
theorem State.push_room {s : State} (h : s.sp.val < 16) :
    s.push = some { s with stack := s.stack.set s.sp.val s.pc h, sp := ⟨s.sp.val + 1, Nat.succ_lt_succ h⟩ } := by
  unfold State.push; rw [dif_pos h]

/-- A push on a full stack. -/
theorem State.push_full {s : State} (h : s.sp.val = 16) : s.push = none := by
  unfold State.push; rw [dif_neg (by simp [h])]

/-- A pop of an entry: `sp` one less, and the program counter the entry there (41_control_flow.md R141). -/
theorem State.pop_entry {s : State} (h : 0 < s.sp.val) :
    ∃ t, s.pop = some t ∧ t = { s with sp := t.sp, pc := t.pc } ∧ t.sp.val + 1 = s.sp.val ∧
      ∃ hk : t.sp.val < Config.stackDepth, t.pc = s.stack[t.sp.val] := by
  unfold State.pop
  rw [dif_pos h]
  exact ⟨_, rfl, rfl, by simp; omega, by simp [Config.stackDepth]; omega, rfl⟩

/-- A pop of an empty stack. -/
theorem State.pop_empty {s : State} (h : s.sp.val = 0) : s.pop = none := by
  unfold State.pop; rw [dif_neg (by omega)]

/-- A push changes the stack and its pointer only. -/
theorem State.push_frame {s t : State} (h : s.push = some t) : t = { s with sp := t.sp, stack := t.stack } := by
  unfold State.push at h
  split at h
  · cases h; rfl
  · cases h

/-- A pop changes the stack pointer and the program counter only. -/
theorem State.pop_frame {s t : State} (h : s.pop = some t) : t = { s with sp := t.sp, pc := t.pc } := by
  unfold State.pop at h
  split at h
  · cases h; rfl
  · cases h

/-- The program counter after a fault taken inside an instruction is the old or the advanced one (60_exceptions.md R269). -/
theorem State.raise_pc_cases (s : State) (c : FaultCause) (op : Word) :
    (s.raise c op).pc = s.pc - 2 ∨ (s.raise c op).pc = s.pc := by
  rw [State.raise_pc]; split
  · exact .inl rfl
  · exact .inr rfl

/-- A fault changes the run state, the record, the program counter and the count of draws, and nothing else (R268). -/
theorem State.raise_frame (s : State) (c : FaultCause) (op : Word) :
    s.raise c op = { s with run := .faulted, faultCause := c, faultPc := s.pc - 2, faultOpcode := op,
                            pc := (s.raise c op).pc, draws := s.draws + 1 } := rfl

/-- The frame of a fault taken in a state. -/
theorem State.onlyFault_raise (s : State) (c : FaultCause) (op : Word) : s.OnlyFault (s.raise c op) := rfl

/-- The record of a fault taken in a state (R268). -/
theorem State.faultedBy_raise (s : State) (c : FaultCause) (op : Word) : s.FaultedBy (s.raise c op) c op :=
  ⟨rfl, rfl, rfl, rfl, State.raise_pc_cases s c op⟩

/-- A block store whose addresses all exist. -/
theorem State.storeBlock_inRange {s : State} {bytes : List Byte} (op : Word)
    (h : blockInRange s.i.toNat bytes.length = true) :
    s.storeBlock op bytes = { s with mem := s.mem.writeBytes s.i.toNat bytes } := by
  unfold State.storeBlock; rw [if_pos h]

/-- A block store that reaches an address that does not exist. -/
theorem State.storeBlock_fault {s : State} {bytes : List Byte} (op : Word)
    (h : blockInRange s.i.toNat bytes.length = false) :
    s.storeBlock op bytes =
      State.raise { s with mem := s.mem.writeSome (fun a => s.keeps (.mem a)) s.i.toNat bytes } .memOutOfBounds op := by
  unfold State.storeBlock; rw [if_neg (by simp [h])]

/-- A block store changes memory, and what a fault writes, only. -/
theorem State.storeBlock_frame (s : State) (op : Word) (bytes : List Byte) :
    s.storeBlock op bytes =
      { s with run := (s.storeBlock op bytes).run, faultCause := (s.storeBlock op bytes).faultCause,
               faultPc := (s.storeBlock op bytes).faultPc, faultOpcode := (s.storeBlock op bytes).faultOpcode,
               pc := (s.storeBlock op bytes).pc, draws := (s.storeBlock op bytes).draws,
               mem := (s.storeBlock op bytes).mem } := by
  unfold State.storeBlock
  split <;> rfl

/-- A block store keeps the canonical form of memory, whether it faults or not. -/
theorem State.storeBlock_wf {s : State} (bytes : List Byte) (op : Word) (h : s.mem.wf = true) :
    (s.storeBlock op bytes).mem.wf = true := by
  by_cases hr : blockInRange s.i.toNat bytes.length = true
  · rw [State.storeBlock_inRange op hr]
    refine wf_writeBytes bytes h ?_
    rcases (blockInRange_iff _ _).1 hr with h0 | h1
    · exact .inl (List.length_eq_zero_iff.1 h0)
    · exact .inr h1
  · rw [State.storeBlock_fault op (by simpa using hr)]
    exact wf_writeSome _ bytes h

@[simp] theorem State.regBytes_length (s : State) (x : Reg) : (s.regBytes x).length = x.toNat + 1 := by
  simp [State.regBytes]

/-- The bytes of `V[0]` to `V[x]`, by register (44_memory_bcd_timer.md R204). -/
theorem State.regBytes_getD (s : State) (x r : Reg) (h : r.toNat ≤ x.toNat) (b : Byte) :
    (s.regBytes x).getD r.toNat b = s.getV r := by
  have hr : BitVec.ofNat 4 r.toNat = r := ofNat_toNat_reg r
  simp [State.regBytes, Nat.lt_succ_of_le h, hr]

theorem State.loadRegs_succ (s : State) (n : Nat) :
    s.loadRegs (n + 1) = (s.loadRegs n).setV (BitVec.ofNat 4 n) (s.mem.read (s.i.toNat + n)) := by
  simp [State.loadRegs, List.range_succ]

/-- A block load changes nothing but registers. -/
theorem State.loadRegs_frame (s : State) : ∀ n, s.loadRegs n = { s with v := (s.loadRegs n).v }
  | 0 => rfl
  | n + 1 => by
    rw [State.loadRegs_succ, State.loadRegs_frame s n]; rfl

/-- A block load: the first `n` registers hold the bytes at I, the others stay (R205). -/
theorem State.getV_loadRegs (s : State) (r : Reg) : ∀ n, n ≤ 16 →
    (s.loadRegs n).getV r = if r.toNat < n then s.mem.read (s.i.toNat + r.toNat) else s.getV r
  | 0, _ => rfl
  | n + 1, h => by
    rw [State.loadRegs_succ, State.getV_setV, State.getV_loadRegs s r n (by omega)]
    have hn : (BitVec.ofNat 4 n).toNat = n := by simp; omega
    by_cases hr : r = BitVec.ofNat 4 n
    · have : r.toNat = n := by rw [hr, hn]
      rw [if_pos hr, if_pos (by omega), this]
    · have : r.toNat ≠ n := fun e => hr (by rw [← e]; exact (ofNat_toNat_reg r).symm)
      rw [if_neg hr]
      by_cases h1 : r.toNat < n
      · rw [if_pos h1, if_pos (by omega)]
      · rw [if_neg h1, if_neg (by omega)]

/-- What a block load that faulted leaves in a register (60_exceptions.md R269). -/
theorem State.getV_loadSomeRegs (s : State) (r : Reg) (n : Nat) :
    (s.loadSomeRegs n).getV r =
      if s.keeps (.reg r) then s.getV r else (s.loadRegs (inRangeCount s.i.toNat n)).getV r := by
  have hr : BitVec.ofNat 4 r.toNat = r := ofNat_toNat_reg r
  simp only [State.loadSomeRegs, State.getV, Vector.getElem_ofFn]
  simp only [hr]
  rfl

/-- The sprite bytes a drawing reads, by row. -/
theorem readBytes_getD (m : Memory) (a n j : Nat) (h : j < n) : (m.readBytes a n).getD j 0 = m.read (a + j) := by
  rw [List.getD_eq_getElem?_getD, readBytes_getElem?, if_pos h]; rfl

/-- Everything the drawing of `n` rows from memory at I does (43_display.md R190). -/
theorem State.drawing_spec (s : State) (vx vy : Byte) (n : Nat) (h : n ≤ 32) :
    let g := s.drawing vx vy n
    (∀ j < n, ∀ col < 8, g.disp.pixel (wrapRow (vy.toNat + j)) (wrapCol (vx.toNat + col)) =
      (s.disp.pixel (wrapRow (vy.toNat + j)) (wrapCol (vx.toNat + col)) ^^
        (s.mem.read (s.i.toNat + j)).getLsbD (7 - col))) ∧
    (∀ r c, (∀ j < n, ∀ col < 8, ¬ (r = wrapRow (vy.toNat + j) ∧ c = wrapCol (vx.toNat + col))) →
      g.disp.pixel r c = s.disp.pixel r c) ∧
    (g.hit = true ↔ ∃ j < n, ∃ col < 8, (s.mem.read (s.i.toNat + j)).getLsbD (7 - col) = true ∧
      s.disp.pixel (wrapRow (vy.toNat + j)) (wrapCol (vx.toNat + col)) = true) := by
  have hlen : (s.mem.readBytes s.i.toNat n).length = n := readBytes_length _ _ _
  obtain ⟨h1, h2, h3⟩ := drawSprite_spec vx.toNat vy.toNat (s.mem.readBytes s.i.toNat n) s.disp (by omega)
  rw [hlen] at h1 h2 h3
  refine ⟨fun j hj col hc => ?_, h2, h3.trans ⟨?_, ?_⟩⟩
  · have := h1 j hj col hc
    rwa [readBytes_getD _ _ _ _ hj] at this
  · rintro ⟨j, hj, col, hc, hb, hp⟩
    rw [readBytes_getD _ _ _ _ hj] at hb
    exact ⟨j, hj, col, hc, hb, hp⟩
  · rintro ⟨j, hj, col, hc, hb, hp⟩
    refine ⟨j, hj, col, hc, ?_, hp⟩
    rwa [readBytes_getD _ _ _ _ hj]

/-- A draw whose rows are all in range changes the display and VF only. -/
theorem State.draw_frame (s : State) (vx vy : Byte) (n : Nat) :
    s.draw vx vy n = { s with v := (s.draw vx vy n).v, disp := (s.drawing vx vy n).disp } := rfl

/-- What a draw that faulted leaves changes the display and VF only. -/
theorem State.drawSome_frame (s : State) (vx vy : Byte) (n : Nat) :
    s.drawSome vx vy n = { s with v := (s.drawSome vx vy n).v, disp := (s.drawSome vx vy n).disp } := rfl

/-- What a block load that faulted leaves changes registers only. -/
theorem State.loadSomeRegs_frame (s : State) (n : Nat) :
    s.loadSomeRegs n = { s with v := (s.loadSomeRegs n).v } := rfl

/-- VF after a draw is the collision, every other register stays (R190). -/
theorem State.getV_draw (s : State) (vx vy : Byte) (n : Nat) (r : Reg) :
    (s.draw vx vy n).getV r = if r = regF then flagByte (s.drawing vx vy n).hit else s.getV r := by
  unfold State.draw; rw [State.getV_setV]; rfl

/-- VF after a draw that faulted, every other register stays (R269). -/
theorem State.getV_drawSome (s : State) (vx vy : Byte) (n : Nat) (r : Reg) :
    (s.drawSome vx vy n).getV r =
      if r = regF then
        (if s.keeps (.reg regF) then s.getV regF
         else flagByte ((s.drawing vx vy (inRangeCount s.i.toNat n)).hit && !s.keeps .collision))
      else s.getV r := by
  by_cases h : r = regF
  · rw [if_pos h, h, State.drawSome]; simp only [State.getV_setV_same]
  · rw [if_neg h, State.drawSome]
    simp only [State.getV_setV_ne _ h]
    simp only [State.getV]

/-- A pixel after a draw that faulted (R269). -/
theorem State.drawSome_pixel (s : State) (vx vy : Byte) (n : Nat) (r : Fin Config.dispRows) (c : Fin Config.dispCols) :
    (s.drawSome vx vy n).disp.pixel r c =
      if s.keeps (.pixel r.val c.val) then s.disp.pixel r c
      else (s.drawing vx vy (inRangeCount s.i.toNat n)).disp.pixel r c := by
  simp only [State.drawSome, State.setV_disp, pixel_mergeKept]

/-- An operation in a state that is not faulted. -/
theorem State.unlessFaulted_live {s : State} (h : s.run ≠ .faulted) (t : State) : s.unlessFaulted t = t := by
  unfold State.unlessFaulted; rw [if_neg h]

/-- An operation in the faulted state is ignored (60_exceptions.md R270). -/
theorem State.unlessFaulted_faulted {s : State} (h : s.run = .faulted) (t : State) : s.unlessFaulted t = s := by
  unfold State.unlessFaulted; rw [if_pos h]

/-- Everything `step` can do (40_step_cycle.md R120 to R126): be ignored, fault in the fetch, fault in the decoding, or
execute the decoded instruction after the advance. -/
theorem step_cases (s : State) :
    (s.run ≠ .running ∧ step s = .next s) ∨
    (s.run = .running ∧ s.fetch = none ∧ step s = .next s.fetchFault) ∨
    (∃ op e, s.run = .running ∧ s.fetch = some op ∧ decodeWord op = .error e ∧
      step s = .next (s.advance.raise .undefinedInstruction op)) ∨
    (∃ op i, s.run = .running ∧ s.fetch = some op ∧ decodeWord op = .instr i ∧ step s = exec i s.advance) := by
  unfold step
  cases hr : s.run with
  | waitingForKey x => exact .inl ⟨by simp, rfl⟩
  | faulted => exact .inl ⟨by simp, rfl⟩
  | running =>
    cases hf : s.fetch with
    | none => exact .inr (.inl ⟨rfl, rfl, rfl⟩)
    | some op =>
      cases hd : decodeWord op with
      | error e => exact .inr (.inr (.inl ⟨op, e, rfl, rfl, hd, by simp only [hd]⟩))
      | instr i => exact .inr (.inr (.inr ⟨op, i, rfl, rfl, hd, by simp only [hd]⟩))

end Sys2Proof.Machine
end

