-- ==== Sys2Proof/Laws/Exec.lean ====
section
/-! SUPPORT. What `exec` answers for the instructions that can fault, one equation per outcome, and the two inversions that
say what any instruction does: with its own fault (`ownFault`) and without. -/

namespace Sys2Proof.Machine

/-- `RET` on an empty stack. -/
theorem exec_ret_empty {s : State} (u : Nibble) (h : s.sp.val = 0) :
    exec (.ret u) s = .next (s.raise .stackUnderflow (encode (.ret u))) := by
  simp only [exec, execRet, State.pop_empty h]

/-- `CALL` with room on the stack. -/
theorem exec_call_room {s : State} (nnn : Addr12) (h : s.sp.val < 16) :
    exec (.call nnn) s =
      .next (State.jump { s with stack := s.stack.set s.sp.val s.pc h, sp := ⟨s.sp.val + 1, Nat.succ_lt_succ h⟩ } (zext16 nnn)) := by
  simp only [exec, execCall, State.push_room h]

/-- `CALL` on a full stack. -/
theorem exec_call_full {s : State} (nnn : Addr12) (h : s.sp.val = 16) :
    exec (.call nnn) s = .next (s.raise .stackOverflow (encode (.call nnn))) := by
  simp only [exec, execCall, State.push_full h]

/-- `DRW` with every sprite row in memory. -/
theorem exec_drw_inRange {s : State} (x y : Reg) {n : Nibble} (h : n.toNat = 0 ∨ s.i.toNat + n.toNat - 1 ≤ 0xFFF) :
    exec (.drw x y n) s = .next (s.draw (s.getV x) (s.getV y) n.toNat) := by
  simp only [exec, execDrw]
  rw [if_pos ((blockInRange_iff _ _).2 (by omega))]

/-- `DRW` with a sprite row above 0xFFF. -/
theorem exec_drw_fault {s : State} (x y : Reg) {n : Nibble} (h : 0 < n.toNat) (h' : 0xFFF < s.i.toNat + n.toNat - 1) :
    exec (.drw x y n) s =
      .next ((s.drawSome (s.getV x) (s.getV y) n.toNat).raise .memOutOfBounds (encode (.drw x y n))) := by
  simp only [exec, execDrw]
  rw [if_neg (by rw [blockInRange_iff]; omega)]

/-- `LD B, Vx` with its three bytes in memory. -/
theorem exec_ldBVx_inRange {s : State} (x : Reg) (h : s.i.toNat + 2 ≤ 0xFFF) :
    exec (.ldBVx x) s = .next { s with mem := s.mem.writeBytes s.i.toNat (bcdDigits (s.getV x)) } := by
  simp only [exec, execLdBVx]
  rw [State.storeBlock_inRange _ ((blockInRange_iff _ _).2 (.inr (by simp [bcdDigits]; omega)))]

/-- `LD B, Vx` with a byte above 0xFFF. -/
theorem exec_ldBVx_fault {s : State} (x : Reg) (h : 0xFFF < s.i.toNat + 2) :
    exec (.ldBVx x) s = .next (State.raise
      { s with mem := s.mem.writeSome (fun a => s.keeps (.mem a)) s.i.toNat (bcdDigits (s.getV x)) } .memOutOfBounds
      (encode (.ldBVx x))) := by
  simp only [exec, execLdBVx]
  rw [State.storeBlock_fault _ ((blockInRange_false_iff _ _).2 ⟨by simp [bcdDigits], by simp [bcdDigits]; omega⟩)]

/-- `LD [I], Vx` with its bytes in memory. -/
theorem exec_ldMemVx_inRange {s : State} (x : Reg) (h : s.i.toNat + x.toNat ≤ 0xFFF) :
    exec (.ldMemVx x) s = .next { s with mem := s.mem.writeBytes s.i.toNat (s.regBytes x) } := by
  simp only [exec, execLdMemVx]
  rw [State.storeBlock_inRange _ ((blockInRange_iff _ _).2 (.inr (by simp; omega)))]

/-- `LD [I], Vx` with a byte above 0xFFF. -/
theorem exec_ldMemVx_fault {s : State} (x : Reg) (h : 0xFFF < s.i.toNat + x.toNat) :
    exec (.ldMemVx x) s = .next (State.raise
      { s with mem := s.mem.writeSome (fun a => s.keeps (.mem a)) s.i.toNat (s.regBytes x) } .memOutOfBounds
      (encode (.ldMemVx x))) := by
  simp only [exec, execLdMemVx]
  rw [State.storeBlock_fault _ ((blockInRange_false_iff _ _).2 ⟨by simp, by simp; omega⟩)]

/-- `LD Vx, [I]` with its bytes in memory. -/
theorem exec_ldVxMem_inRange {s : State} (x : Reg) (h : s.i.toNat + x.toNat ≤ 0xFFF) :
    exec (.ldVxMem x) s = .next (s.loadRegs (x.toNat + 1)) := by
  simp only [exec, execLdVxMem]
  rw [if_pos ((blockInRange_iff _ _).2 (by omega))]

/-- `LD Vx, [I]` with a byte above 0xFFF. -/
theorem exec_ldVxMem_fault {s : State} (x : Reg) (h : 0xFFF < s.i.toNat + x.toNat) :
    exec (.ldVxMem x) s = .next ((s.loadSomeRegs (x.toNat + 1)).raise .memOutOfBounds (encode (.ldVxMem x))) := by
  simp only [exec, execLdVxMem]
  rw [if_neg (by rw [blockInRange_iff]; omega)]

/-- A value that names a key. -/
theorem keyOfByte_key {b : Byte} (h : b.toNat ≤ 15) : keyOfByte b = some (b.setWidth 4) := by
  unfold keyOfByte; rw [if_pos h]

/-- A value that names no key. -/
theorem keyOfByte_none {b : Byte} (h : 15 < b.toNat) : keyOfByte b = none := by
  unfold keyOfByte; rw [if_neg (by omega)]

/-- `SKP` of a key. -/
theorem exec_skp_key {s : State} (x : Reg) (h : (s.getV x).toNat ≤ 15) :
    exec (.skp x) s = .next (s.skipIf (s.keyDown ((s.getV x).setWidth 4))) := by
  simp only [exec, execSkp, keyOfByte_key h]

/-- `SKP` of a value above 15. -/
theorem exec_skp_fault {s : State} (x : Reg) (h : 15 < (s.getV x).toNat) :
    exec (.skp x) s = .next (s.raise .keyIndexRange (encode (.skp x))) := by
  simp only [exec, execSkp, keyOfByte_none h]

/-- `SKNP` of a key. -/
theorem exec_sknp_key {s : State} (x : Reg) (h : (s.getV x).toNat ≤ 15) :
    exec (.sknp x) s = .next (s.skipIf (!s.keyDown ((s.getV x).setWidth 4))) := by
  simp only [exec, execSknp, keyOfByte_key h]

/-- `SKNP` of a value above 15. -/
theorem exec_sknp_fault {s : State} (x : Reg) (h : 15 < (s.getV x).toNat) :
    exec (.sknp x) s = .next (s.raise .keyIndexRange (encode (.sknp x))) := by
  simp only [exec, execSknp, keyOfByte_none h]

/-- The word the fetch reads, as the number `wordAtPc`. -/
theorem wordOfBytes_atPc (s : State) :
    wordOfBytes (s.mem.read s.pc.toNat) (s.mem.read (s.pc.toNat + 1)) = BitVec.ofNat 16 s.wordAtPc := by
  apply BitVec.eq_of_toNat_eq
  have := (wordOfBytes (s.mem.read s.pc.toNat) (s.mem.read (s.pc.toNat + 1))).isLt
  rw [wordOfBytes_toNat] at this ⊢
  simp [State.wordAtPc]; omega

/-- The advance changes nothing an instruction's own fault depends on. -/
theorem ownFault_advance (i : Instr) (s : State) : ownFault i s.advance = ownFault i s := by cases i <;> rfl

/-- An instruction that meets its fault condition raises that fault, from a state with the program counter it was given. -/
theorem exec_faulting {i : Instr} {s : State} (h : ownFault i s ≠ .none) :
    ∃ g : State, exec i s = .next (g.raise (ownFault i s) (encode i)) ∧ g.pc = s.pc ∧
      (s.mem.wf = true → g.mem.wf = true) := by
  cases i <;>
    simp only [ownFault, ne_eq, not_true_eq_false, ite_eq_right_iff, Classical.not_imp, reduceCtorEq, not_false_eq_true,
      and_true] at h
  all_goals simp only [ownFault, if_pos h]
  case ret u => exact ⟨_, exec_ret_empty u h, rfl, id⟩
  case call nnn => exact ⟨_, exec_call_full nnn h, rfl, id⟩
  case drw x y n => exact ⟨_, exec_drw_fault x y h.1 h.2, rfl, id⟩
  case skp x => exact ⟨_, exec_skp_fault x h, rfl, id⟩
  case sknp x => exact ⟨_, exec_sknp_fault x h, rfl, id⟩
  case ldBVx x => exact ⟨_, exec_ldBVx_fault x h, rfl, fun hm => wf_writeSome _ _ hm⟩
  case ldMemVx x => exact ⟨_, exec_ldMemVx_fault x h, rfl, fun hm => wf_writeSome _ _ hm⟩
  case ldVxMem x => exact ⟨_, exec_ldVxMem_fault x h, rfl, id⟩

/-- What an instruction that meets no fault condition leaves of the run state, the record, the form of memory, the program
counter and the stack. -/
structure Completes (s t : State) : Prop where
  run : t.run = s.run ∨ ∃ x, t.run = .waitingForKey x
  record : t.faultCause = s.faultCause ∧ t.faultPc = s.faultPc ∧ t.faultOpcode = s.faultOpcode
  mem : s.mem.wf = true → t.mem.wf = true
  pc : t.pc = s.pc ∨ t.pc = s.pc + 2 ∨ t.pc.toNat ≤ 0x10FE ∨ (0 < s.sp.val ∧ s.stack[s.sp.val - 1]? = some t.pc)
  stack : ∀ j : Fin Config.stackDepth, j.val < t.sp.val →
    (j.val < s.sp.val ∧ t.stack[j] = s.stack[j]) ∨ (j.val = s.sp.val ∧ t.stack[j] = s.pc)

/-- An instruction that changes none of these but the program counter, in the three ways a non-return can. -/
theorem Completes.of_plain {s t : State} (h : t = { s with v := t.v, i := t.i, pc := t.pc, dt := t.dt, st := t.st, disp := t.disp, draws := t.draws })
    (hpc : t.pc = s.pc ∨ t.pc = s.pc + 2 ∨ t.pc.toNat ≤ 0x10FE) : Completes s t where
  run := .inl (by rw [h])
  record := by rw [h]; exact ⟨rfl, rfl, rfl⟩
  mem hm := by rw [h]; exact hm
  pc := by tauto
  stack j hj := by rw [h] at hj ⊢; exact .inl ⟨hj, rfl⟩

/-- A skip leaves the program counter or adds 2. -/
theorem State.skipIf_completes (s : State) (c : Bool) : Completes s (s.skipIf c) := by
  cases c
  · exact .of_plain rfl (.inl rfl)
  · exact .of_plain rfl (.inr (.inl rfl))

/-- An instruction that meets no fault condition completes. -/
theorem exec_completing {i : Instr} {s : State} (h : ownFault i s = .none) :
    ∃ t, exec i s = .next t ∧ Completes s t := by
  cases i
  case ret u =>
    simp only [ownFault, ite_eq_right_iff, reduceCtorEq, imp_false] at h
    obtain ⟨t, e, hf, hsp, hk, hpc⟩ := State.pop_entry (s := s) (by omega)
    refine ⟨t, by simp only [exec, execRet, e], .inl (by rw [hf]), by rw [hf]; exact ⟨rfl, rfl, rfl⟩, by rw [hf]; exact id,
      .inr (.inr (.inr ⟨by omega, ?_⟩)), fun j hj => .inl ⟨by omega, by rw [hf]⟩⟩
    rw [hpc, show s.sp.val - 1 = t.sp.val by omega]
    exact Vector.getElem?_eq_getElem hk
  case call nnn =>
    simp only [ownFault, ite_eq_right_iff, reduceCtorEq, imp_false] at h
    have hlt : s.sp.val < 16 := by omega
    refine ⟨_, exec_call_room nnn hlt, .inl rfl, ⟨rfl, rfl, rfl⟩, id, .inr (.inr (.inl ?_)), fun j hj => ?_⟩
    · have := nnn.isLt; simp [State.jump, zext16]; omega
    · simp only [State.jump] at hj ⊢
      by_cases hjs : j.val = s.sp.val
      · exact .inr ⟨hjs, by simp [hjs]⟩
      · exact .inl ⟨by omega, by simp only [Fin.getElem_fin]; rw [Vector.getElem_set_ne _ _ (by omega)]⟩
  case jp nnn => exact ⟨_, rfl, .of_plain rfl (.inr (.inr (by have := nnn.isLt; simp [zext16]; omega)))⟩
  case jpV0 nnn =>
    refine ⟨_, rfl, .of_plain rfl (.inr (.inr ?_))⟩
    have := nnn.isLt; have := (s.getV 0).isLt; simp [offsetTarget]; omega
  case seImm x nn => exact ⟨_, rfl, State.skipIf_completes _ _⟩
  case sneImm x nn => exact ⟨_, rfl, State.skipIf_completes _ _⟩
  case seReg x y => exact ⟨_, rfl, State.skipIf_completes _ _⟩
  case sneReg x y => exact ⟨_, rfl, State.skipIf_completes _ _⟩
  case drw x y n =>
    simp only [ownFault, ite_eq_right_iff, reduceCtorEq, imp_false] at h
    exact ⟨_, exec_drw_inRange x y (by omega), .of_plain rfl (.inl rfl)⟩
  case skp x =>
    simp only [ownFault, ite_eq_right_iff, reduceCtorEq, imp_false, not_lt] at h
    exact ⟨_, exec_skp_key x h, State.skipIf_completes _ _⟩
  case sknp x =>
    simp only [ownFault, ite_eq_right_iff, reduceCtorEq, imp_false, not_lt] at h
    exact ⟨_, exec_sknp_key x h, State.skipIf_completes _ _⟩
  case ldVxK x =>
    exact ⟨_, rfl, .inr ⟨x, rfl⟩, ⟨rfl, rfl, rfl⟩, id, .inl rfl, fun j hj => .inl ⟨hj, rfl⟩⟩
  case ldBVx x =>
    simp only [ownFault, ite_eq_right_iff, reduceCtorEq, imp_false, not_lt] at h
    exact ⟨_, exec_ldBVx_inRange x h, .inl rfl, ⟨rfl, rfl, rfl⟩,
      fun hm => wf_writeBytes _ hm (.inr (by simp [bcdDigits]; omega)), .inl rfl, fun j hj => .inl ⟨hj, rfl⟩⟩
  case ldMemVx x =>
    simp only [ownFault, ite_eq_right_iff, reduceCtorEq, imp_false, not_lt] at h
    exact ⟨_, exec_ldMemVx_inRange x h, .inl rfl, ⟨rfl, rfl, rfl⟩,
      fun hm => wf_writeBytes _ hm (.inr (by simp; omega)), .inl rfl, fun j hj => .inl ⟨hj, rfl⟩⟩
  case ldVxMem x =>
    simp only [ownFault, ite_eq_right_iff, reduceCtorEq, imp_false, not_lt] at h
    exact ⟨_, (exec_ldVxMem_inRange x h).trans (congrArg _ (State.loadRegs_frame s _)), .of_plain rfl (.inl rfl)⟩
  all_goals exact ⟨_, rfl, .of_plain rfl (.inl rfl)⟩

end Sys2Proof.Machine
end

