-- ==== Sys2Proof/Laws/HostOps.lean ====
section
/-! SUPPORT. What each host operation leaves in each field, for an accepted operation (46_host_operations.md R236 to R239,
70_reset_and_hazards.md R291). -/

namespace Sys2Proof.Machine

/-- `tick_timers` accepted. -/
theorem State.tickTimers_live {s : State} (h : s.run ≠ .faulted) :
    s.tickTimers = { s with dt := tickDown s.dt, st := tickDown s.st } := State.unlessFaulted_live h _

/-- One tick of one timer: less one, never below zero (R236). -/
theorem tickDown_toNat (b : Byte) : (tickDown b).toNat = b.toNat - 1 := by revert b; decide

/-- A key state after one key has been recorded. -/
theorem State.keyDown_putKey (s : State) (k j : Key) (down : Bool) :
    (s.putKey k down).keyDown j = if j = k then down else s.keyDown j := by
  unfold State.keyDown State.putKey
  by_cases h : j = k
  · subst h; simp
  · have := toNat_ne_of_ne h
    simp [h, Ne.symm this]

/-- A key-down event on a running core. -/
theorem State.setKey_running {s : State} (h : s.run = .running) (k : Key) : s.setKey k = s.putKey k true := by
  rw [State.setKey, State.unlessFaulted_live (by simp [h])]
  simp only [h]

/-- A key-down event in a key wait. -/
theorem State.setKey_waiting {s : State} {x : Reg} (h : s.run = .waitingForKey x) (k : Key) :
    s.setKey k = { (s.putKey k true).setV x (zext8 k) with run := .running } := by
  rw [State.setKey, State.unlessFaulted_live (by simp [h])]
  simp only [h]

/-- A key-up event accepted. -/
theorem State.clearKey_live {s : State} (h : s.run ≠ .faulted) (k : Key) : s.clearKey k = s.putKey k false :=
  State.unlessFaulted_live h _

/-- The images a host may load (R239, R247). -/
theorem loadableImage_iff (bytes : List Byte) : loadableImage bytes = true ↔ bytes.length ≤ 3584 := decide_eq_true_iff

/-- A load that fits. -/
theorem State.loadProgram_fits {s : State} {bytes : List Byte} (h : s.run ≠ .faulted) (hl : bytes.length ≤ 3584) :
    s.loadProgram bytes = { s with mem := s.mem.writeBytes 0x200 bytes } := by
  rw [State.loadProgram, State.unlessFaulted_live h, if_pos ((loadableImage_iff _).2 hl)]; rfl

/-- A load that is too large. -/
theorem State.loadProgram_tooLarge {s : State} {bytes : List Byte} (h : s.run ≠ .faulted) (hl : 3584 < bytes.length) :
    s.loadProgram bytes = s.latchFault .loadTooLarge s.pc 0 := by
  rw [State.loadProgram, State.unlessFaulted_live h, if_neg]
  rw [loadableImage_iff]; omega

/-- The `reset` operation, field by field. -/
@[simp] theorem State.resetOp_v (s : State) : s.resetOp.v = Vector.replicate 16 0 := rfl
@[simp] theorem State.resetOp_i (s : State) : s.resetOp.i = 0 := rfl
@[simp] theorem State.resetOp_pc (s : State) : s.resetOp.pc = 0x0200 := rfl
@[simp] theorem State.resetOp_sp (s : State) : s.resetOp.sp = 0 := rfl
@[simp] theorem State.resetOp_stack (s : State) : s.resetOp.stack = Vector.replicate Config.stackDepth 0 := rfl
@[simp] theorem State.resetOp_dt (s : State) : s.resetOp.dt = 0 := rfl
@[simp] theorem State.resetOp_st (s : State) : s.resetOp.st = 0 := rfl
@[simp] theorem State.resetOp_disp (s : State) : s.resetOp.disp = Display.blank := rfl
@[simp] theorem State.resetOp_keys (s : State) : s.resetOp.keys = s.keys := rfl
@[simp] theorem State.resetOp_run (s : State) : s.resetOp.run = .running := rfl
@[simp] theorem State.resetOp_faultCause (s : State) : s.resetOp.faultCause = .none := rfl
@[simp] theorem State.resetOp_faultPc (s : State) : s.resetOp.faultPc = 0 := rfl
@[simp] theorem State.resetOp_faultOpcode (s : State) : s.resetOp.faultOpcode = 0 := rfl
@[simp] theorem State.resetOp_mem (s : State) : s.resetOp.mem = s.mem.writeBytes 0 Config.font := by
  unfold State.resetOp; simp only
@[simp] theorem State.resetOp_draws (s : State) : s.resetOp.draws = s.draws := rfl

end Sys2Proof.Machine
end

