-- ==== Sys2Proof/Laws/PerInstr.lean ====
section
/-! SUPPORT. Per-instruction laws. The family `RowOf`: the word of every instruction, whatever its operands, is selected by
its own row of the opcode map (30_encoding.md R95). -/

namespace Sys2Proof.Laws

/-- The row of the opcode map an instruction belongs to: its place in the table of R95, counted from 0. -/
def rowNumber : Instr → Nat
  | .cls _ => 0
  | .ret _ => 1
  | .jp _ => 2
  | .call _ => 3
  | .seImm _ _ => 4
  | .sneImm _ _ => 5
  | .seReg _ _ => 6
  | .ldImm _ _ => 7
  | .addImm _ _ => 8
  | .ldReg _ _ => 9
  | .orReg _ _ => 10
  | .andReg _ _ => 11
  | .xorReg _ _ => 12
  | .addReg _ _ => 13
  | .subReg _ _ => 14
  | .shr _ _ => 15
  | .subn _ _ => 16
  | .shl _ _ => 17
  | .sneReg _ _ => 18
  | .ldI _ => 19
  | .jpV0 _ => 20
  | .rnd _ _ => 21
  | .drw _ _ _ => 22
  | .skp _ => 23
  | .sknp _ => 24
  | .ldVxDt _ => 25
  | .ldVxK _ => 26
  | .ldDtVx _ => 27
  | .ldStVx _ => 28
  | .addIVx _ => 29
  | .ldFVx _ => 30
  | .ldBVx _ => 31
  | .ldMemVx _ => 32
  | .ldVxMem _ => 33

/-- The word of the instruction is selected by its row. -/
def RowOf.Statement (i : Instr) : Prop := (opcodeMap[rowNumber i]?).any (·.selects (encode i)) = true

theorem selects_of_eq {r : OpcodeRow} {op : Word} (h : op &&& r.mask = r.bits) : r.selects op = true := by
  simp [OpcodeRow.selects, h]

theorem RowOf.cls (u : Nibble) : RowOf.Statement (.cls u) := selects_of_eq (r := ⟨"CLS", 0xF0FF, 0x00E0⟩) (wordXNN_mask _ _ _)
theorem RowOf.ret (u : Nibble) : RowOf.Statement (.ret u) := selects_of_eq (r := ⟨"RET", 0xF0FF, 0x00EE⟩) (wordXNN_mask _ _ _)
theorem RowOf.jp (a : Addr12) : RowOf.Statement (.jp a) := selects_of_eq (r := ⟨"JP nnn", 0xF000, 0x1000⟩) (wordNNN_mask _ _)
theorem RowOf.call (a : Addr12) : RowOf.Statement (.call a) :=
  selects_of_eq (r := ⟨"CALL nnn", 0xF000, 0x2000⟩) (wordNNN_mask _ _)
theorem RowOf.seImm (x : Reg) (b : Byte) : RowOf.Statement (.seImm x b) :=
  selects_of_eq (r := ⟨"SE Vx, nn", 0xF000, 0x3000⟩) (wordXNN_mask_family _ _ _)
theorem RowOf.sneImm (x : Reg) (b : Byte) : RowOf.Statement (.sneImm x b) :=
  selects_of_eq (r := ⟨"SNE Vx, nn", 0xF000, 0x4000⟩) (wordXNN_mask_family _ _ _)
theorem RowOf.seReg (x y : Reg) : RowOf.Statement (.seReg x y) :=
  selects_of_eq (r := ⟨"SE Vx, Vy", 0xF00F, 0x5000⟩) (wordXYN_mask _ _ _ _)
theorem RowOf.ldImm (x : Reg) (b : Byte) : RowOf.Statement (.ldImm x b) :=
  selects_of_eq (r := ⟨"LD Vx, nn", 0xF000, 0x6000⟩) (wordXNN_mask_family _ _ _)
theorem RowOf.addImm (x : Reg) (b : Byte) : RowOf.Statement (.addImm x b) :=
  selects_of_eq (r := ⟨"ADD Vx, nn", 0xF000, 0x7000⟩) (wordXNN_mask_family _ _ _)
theorem RowOf.ldReg (x y : Reg) : RowOf.Statement (.ldReg x y) :=
  selects_of_eq (r := ⟨"LD Vx, Vy", 0xF00F, 0x8000⟩) (wordXYN_mask _ _ _ _)
theorem RowOf.orReg (x y : Reg) : RowOf.Statement (.orReg x y) :=
  selects_of_eq (r := ⟨"OR Vx, Vy", 0xF00F, 0x8001⟩) (wordXYN_mask _ _ _ _)
theorem RowOf.andReg (x y : Reg) : RowOf.Statement (.andReg x y) :=
  selects_of_eq (r := ⟨"AND Vx, Vy", 0xF00F, 0x8002⟩) (wordXYN_mask _ _ _ _)
theorem RowOf.xorReg (x y : Reg) : RowOf.Statement (.xorReg x y) :=
  selects_of_eq (r := ⟨"XOR Vx, Vy", 0xF00F, 0x8003⟩) (wordXYN_mask _ _ _ _)
theorem RowOf.addReg (x y : Reg) : RowOf.Statement (.addReg x y) :=
  selects_of_eq (r := ⟨"ADD Vx, Vy", 0xF00F, 0x8004⟩) (wordXYN_mask _ _ _ _)
theorem RowOf.subReg (x y : Reg) : RowOf.Statement (.subReg x y) :=
  selects_of_eq (r := ⟨"SUB Vx, Vy", 0xF00F, 0x8005⟩) (wordXYN_mask _ _ _ _)
theorem RowOf.shr (x y : Reg) : RowOf.Statement (.shr x y) :=
  selects_of_eq (r := ⟨"SHR Vx", 0xF00F, 0x8006⟩) (wordXYN_mask _ _ _ _)
theorem RowOf.subn (x y : Reg) : RowOf.Statement (.subn x y) :=
  selects_of_eq (r := ⟨"SUBN Vx, Vy", 0xF00F, 0x8007⟩) (wordXYN_mask _ _ _ _)
theorem RowOf.shl (x y : Reg) : RowOf.Statement (.shl x y) :=
  selects_of_eq (r := ⟨"SHL Vx", 0xF00F, 0x800E⟩) (wordXYN_mask _ _ _ _)
theorem RowOf.sneReg (x y : Reg) : RowOf.Statement (.sneReg x y) :=
  selects_of_eq (r := ⟨"SNE Vx, Vy", 0xF00F, 0x9000⟩) (wordXYN_mask _ _ _ _)
theorem RowOf.ldI (a : Addr12) : RowOf.Statement (.ldI a) :=
  selects_of_eq (r := ⟨"LD I, nnn", 0xF000, 0xA000⟩) (wordNNN_mask _ _)
theorem RowOf.jpV0 (a : Addr12) : RowOf.Statement (.jpV0 a) :=
  selects_of_eq (r := ⟨"JP V0, nnn", 0xF000, 0xB000⟩) (wordNNN_mask _ _)
theorem RowOf.rnd (x : Reg) (b : Byte) : RowOf.Statement (.rnd x b) :=
  selects_of_eq (r := ⟨"RND Vx, nn", 0xF000, 0xC000⟩) (wordXNN_mask_family _ _ _)
theorem RowOf.drw (x y : Reg) (n : Nibble) : RowOf.Statement (.drw x y n) :=
  selects_of_eq (r := ⟨"DRW Vx, Vy, n", 0xF000, 0xD000⟩) (wordXYN_mask_family _ _ _ _)
theorem RowOf.skp (x : Reg) : RowOf.Statement (.skp x) :=
  selects_of_eq (r := ⟨"SKP Vx", 0xF0FF, 0xE09E⟩) (wordXNN_mask _ _ _)
theorem RowOf.sknp (x : Reg) : RowOf.Statement (.sknp x) :=
  selects_of_eq (r := ⟨"SKNP Vx", 0xF0FF, 0xE0A1⟩) (wordXNN_mask _ _ _)
theorem RowOf.ldVxDt (x : Reg) : RowOf.Statement (.ldVxDt x) :=
  selects_of_eq (r := ⟨"LD Vx, DT", 0xF0FF, 0xF007⟩) (wordXNN_mask _ _ _)
theorem RowOf.ldVxK (x : Reg) : RowOf.Statement (.ldVxK x) :=
  selects_of_eq (r := ⟨"LD Vx, K", 0xF0FF, 0xF00A⟩) (wordXNN_mask _ _ _)
theorem RowOf.ldDtVx (x : Reg) : RowOf.Statement (.ldDtVx x) :=
  selects_of_eq (r := ⟨"LD DT, Vx", 0xF0FF, 0xF015⟩) (wordXNN_mask _ _ _)
theorem RowOf.ldStVx (x : Reg) : RowOf.Statement (.ldStVx x) :=
  selects_of_eq (r := ⟨"LD ST, Vx", 0xF0FF, 0xF018⟩) (wordXNN_mask _ _ _)
theorem RowOf.addIVx (x : Reg) : RowOf.Statement (.addIVx x) :=
  selects_of_eq (r := ⟨"ADD I, Vx", 0xF0FF, 0xF01E⟩) (wordXNN_mask _ _ _)
theorem RowOf.ldFVx (x : Reg) : RowOf.Statement (.ldFVx x) :=
  selects_of_eq (r := ⟨"LD F, Vx", 0xF0FF, 0xF029⟩) (wordXNN_mask _ _ _)
theorem RowOf.ldBVx (x : Reg) : RowOf.Statement (.ldBVx x) :=
  selects_of_eq (r := ⟨"LD B, Vx", 0xF0FF, 0xF033⟩) (wordXNN_mask _ _ _)
theorem RowOf.ldMemVx (x : Reg) : RowOf.Statement (.ldMemVx x) :=
  selects_of_eq (r := ⟨"LD [I], Vx", 0xF0FF, 0xF055⟩) (wordXNN_mask _ _ _)
theorem RowOf.ldVxMem (x : Reg) : RowOf.Statement (.ldVxMem x) :=
  selects_of_eq (r := ⟨"LD Vx, [I]", 0xF0FF, 0xF065⟩) (wordXNN_mask _ _ _)

end Sys2Proof.Laws
end

