-- ==== Sys2Proof/Tests/Slice0.lean ====
section
/-! SUPPORT. The model's own tests: the checks of WellFormed refuse what they should; a word written out from the encoding of
30_encoding.md R95 for every constructor decodes to it; one step on a small state for the rows of spec/95_test_vectors.md (A1
to A10, B1 to B6), the expected values being that file's; and, for every statement with hypotheses, a state and operands that
meet them (theorems `witness_…`). -/

namespace Sys2Proof.Tests

open Sys2Proof Sys2Proof.Machine

/-! ### Helpers -/

/-- The power-on state with some V registers set. -/
def regs (vs : List (Reg × Byte)) : State := vs.foldl (fun s p => s.setV p.1 p.2) State.reset

/-- The state after one step that fetches the word `w` where `s` fetches next. -/
def stepOn (w : Nat) (s : State) : State :=
  match step (s.withFetchWord 16 w) with
  | .next t => t
  | _ => s

/-- The state after one `step` with memory as it is. -/
def stepped (s : State) : State :=
  match step s with
  | .next t => t
  | _ => s

/-- The state after a sequence of host operations. -/
def after (ops : List HostOp) (s : State) : State :=
  match runOps ops s with
  | .next t => t
  | _ => s

/-- The fault record and the run state say that the word at `a` faulted with the cause. -/
def faultedWith (s : State) (c : FaultCause) (a op : Word) : Bool :=
  s.run == .faulted && s.faultCause == c && s.faultPc == a && s.faultOpcode == op

/-- The pixels of a row that are set, by column. -/
def rowOn (s : State) (r : Fin 32) : List Nat := (List.range 64).filter fun c => s.disp.pixel r (wrapCol c)

/-- The power-on state with one pixel set. -/
def onePixel (r : Fin 32) (c : Fin 64) : State := { State.reset with disp := Display.blank.setPixel r c true }

/-- The power-on state with the stack `depth` deep, every entry 0x0300. -/
def deep (depth : Fin 17) : State := { State.reset with sp := depth, stack := Vector.replicate 16 0x0300 }

/-! ### Well-formedness -/

theorem test_illegal_family_0 : legalWord 0x00E1 = false ∧ legalWord 0x0123 = false ∧ legalWord 0x0000 = false := by decide
theorem test_illegal_family_5 : legalWord 0x5121 = false ∧ legalWord 0x512F = false := by decide
theorem test_illegal_family_8 : legalWord 0x8128 = false ∧ legalWord 0x812D = false ∧ legalWord 0x812F = false := by decide
theorem test_illegal_family_9 : legalWord 0x9121 = false := by decide
theorem test_illegal_family_E : legalWord 0xE19F = false ∧ legalWord 0xE1A0 = false ∧ legalWord 0xE100 = false := by decide
theorem test_illegal_family_F : legalWord 0xF100 = false ∧ legalWord 0xF11F = false ∧ legalWord 0xF1FF = false := by decide
theorem test_legal_words : legalWord 0x00E0 = true ∧ legalWord 0x0FEE = true ∧ legalWord 0x8F0E = true := by decide
theorem test_not_canonical : (Instr.cls 1).canonical = false ∧ (Instr.ret 0xF).canonical = false ∧
    (Instr.shr 1 2).canonical = false ∧ (Instr.shl 3 4).canonical = false := by decide
theorem test_canonical : (Instr.cls 0).canonical = true ∧ (Instr.shr 1 1).canonical = true ∧
    (Instr.shl 3 0).canonical = true ∧ (Instr.jp 0xFFF).canonical = true := by decide
theorem test_image_too_large : loadableImage (List.replicate 3585 0) = false := by
  unfold loadableImage; rw [List.length_replicate]; decide
theorem test_image_fits : loadableImage (List.replicate 3584 0) = true := by
  unfold loadableImage; rw [List.length_replicate]; decide
theorem test_memory_not_canonical : Memory.wf [(0x300, 0x00)] = false ∧ Memory.wf [(0x000, 0xF0)] = false ∧
    Memory.wf [(0x301, 0x01), (0x300, 0x01)] = false ∧ Memory.wf [(0x1000, 0x01)] = false := by decide
theorem test_opcode_map_has_34_rows : opcodeMap.length = 34 := by decide

/-! ### Decoding: a word for every constructor, written out from R95 -/

theorem test_decode_family_0 : decodeWord 0x00E0 = .instr (.cls 0x0) ∧ decodeWord 0x00EE = .instr (.ret 0x0) ∧
    decodeWord 0x01E0 = .instr (.cls 0x1) ∧ decodeWord 0x0FEE = .instr (.ret 0xF) := by decide
theorem test_decode_jumps : decodeWord 0x1234 = .instr (.jp 0x234) ∧ decodeWord 0x2ABC = .instr (.call 0xABC) ∧
    decodeWord 0xB210 = .instr (.jpV0 0x210) := by decide
theorem test_decode_skips : decodeWord 0x3542 = .instr (.seImm 0x5 0x42) ∧ decodeWord 0x4543 = .instr (.sneImm 0x5 0x43) ∧
    decodeWord 0x5120 = .instr (.seReg 0x1 0x2) ∧ decodeWord 0x9130 = .instr (.sneReg 0x1 0x3) := by decide
theorem test_decode_immediates : decodeWord 0x6FAB = .instr (.ldImm 0xF 0xAB) ∧ decodeWord 0x7103 = .instr (.addImm 0x1 0x03) ∧
    decodeWord 0xC10F = .instr (.rnd 0x1 0x0F) := by decide
theorem test_decode_logic : decodeWord 0x8120 = .instr (.ldReg 0x1 0x2) ∧ decodeWord 0x8121 = .instr (.orReg 0x1 0x2) ∧
    decodeWord 0x8122 = .instr (.andReg 0x1 0x2) ∧ decodeWord 0x8123 = .instr (.xorReg 0x1 0x2) := by decide
theorem test_decode_arithmetic : decodeWord 0x81F4 = .instr (.addReg 0x1 0xF) ∧ decodeWord 0x8F25 = .instr (.subReg 0xF 0x2) ∧
    decodeWord 0x8127 = .instr (.subn 0x1 0x2) := by decide
theorem test_decode_shifts : decodeWord 0x8176 = .instr (.shr 0x1 0x7) ∧ decodeWord 0x8F0E = .instr (.shl 0xF 0x0) := by decide
theorem test_decode_index : decodeWord 0xAFFE = .instr (.ldI 0xFFE) ∧ decodeWord 0xF11E = .instr (.addIVx 0x1) ∧
    decodeWord 0xF229 = .instr (.ldFVx 0x2) := by decide
theorem test_decode_draw : decodeWord 0xD12F = .instr (.drw 0x1 0x2 0xF) ∧ decodeWord 0xDF10 = .instr (.drw 0xF 0x1 0x0) := by
  decide
theorem test_decode_keys : decodeWord 0xE19E = .instr (.skp 0x1) ∧ decodeWord 0xE2A1 = .instr (.sknp 0x2) ∧
    decodeWord 0xF30A = .instr (.ldVxK 0x3) := by decide
theorem test_decode_timers : decodeWord 0xF107 = .instr (.ldVxDt 0x1) ∧ decodeWord 0xF215 = .instr (.ldDtVx 0x2) ∧
    decodeWord 0xF318 = .instr (.ldStVx 0x3) := by decide
theorem test_decode_memory : decodeWord 0xFA33 = .instr (.ldBVx 0xA) ∧ decodeWord 0xFF55 = .instr (.ldMemVx 0xF) ∧
    decodeWord 0xF465 = .instr (.ldVxMem 0x4) := by decide
theorem test_decode_undefined : decodeWord 0x0000 = .error (.undefinedInstruction 0x0000) ∧
    decodeWord 0x812A = .error (.undefinedInstruction 0x812A) ∧ decodeWord 0xF130 = .error (.undefinedInstruction 0xF130) := by
  decide
theorem test_decode_bytes_are_big_endian : decode [0x12, 0x34] = .instr (.jp 0x234) ∧
    decode [0x34, 0x12] = .instr (.seImm 0x4 0x12) ∧ decode [0x12] = .error .truncated := by decide
theorem test_encode_words : encode (.drw 0x1 0x3 0xF) = 0xD13F ∧ encode (.sknp 0xC) = 0xECA1 ∧ encode (.shl 0x2 0x5) = 0x825E := by
  decide
theorem test_table_words : decodeTableWord 16 0xD13F = some (.drw 0x1 0x3 0xF) ∧ decodeTableWord 16 0x00E1 = none := by decide

/-! ### The step operation (B1) -/

theorem test_fetch_is_big_endian : (stepped { State.reset with mem := [(0x200, 0x12), (0x201, 0x34)] }).pc = 0x0234 := by decide
theorem test_odd_pc :
    (stepped { State.reset with pc := 0x0201, mem := [(0x201, 0x60), (0x202, 0x07)] }).getV 0x0 = 0x07 := by decide
theorem test_undefined_word_in_the_font :
    faultedWith (stepped { State.reset with pc := 0x0000 }) .undefinedInstruction 0x0000 0xF090 = true := by decide
theorem test_nothing_loaded : faultedWith (stepped State.reset) .undefinedInstruction 0x0200 0x0000 = true := by decide
theorem test_last_word : (stepped { State.reset with pc := 0x0FFE, mem := [(0xFFE, 0x60), (0xFFF, 0x01)] }).pc = 0x1000 := by
  decide
theorem test_fetch_out_of_bounds :
    faultedWith (stepped { State.reset with pc := 0x0FFF }) .memOutOfBounds 0x0FFF 0x0000 = true := by decide
theorem test_step_ignored_while_waiting :
    stepped { State.reset with run := .waitingForKey 3 } = { State.reset with run := .waitingForKey 3 } := by decide
theorem test_fetch_word_from_reset : State.reset.withFetchWord 16 0x6A02 = { State.reset with mem := [(0x200, 0x6A), (0x201, 0x02)] } := by
  decide

/-! ### Control flow (B2) -/

theorem test_cls_keeps_vf : rowOn (stepOn 0x00E0 ((onePixel 3 5).setV 0xF 1)) 3 = [] ∧
    (stepOn 0x00E0 ((onePixel 3 5).setV 0xF 1)).getV 0xF = 1 := by decide
theorem test_ret_underflow : faultedWith (stepOn 0x00EE State.reset) .stackUnderflow 0x0200 0x00EE = true := by decide
theorem test_ret_ignores_bits_11_8 : (stepOn 0x0FEE (deep 1)).pc = 0x0300 ∧ (stepOn 0x0FEE (deep 1)).sp = 0 := by decide
theorem test_jp_self : stepOn 0x1200 State.reset = State.reset.withFetchWord 16 0x1200 := by decide
theorem test_jp_top : (stepOn 0x1FFF State.reset).pc = 0x0FFF := by decide
theorem test_call_pushes : (stepOn 0x2ABC State.reset).stack[0] = 0x0202 ∧ (stepOn 0x2ABC State.reset).sp = 1 ∧
    (stepOn 0x2ABC State.reset).pc = 0x0ABC := by decide
theorem test_call_overflow : faultedWith (stepOn 0x2300 (deep 16)) .stackOverflow 0x0200 0x2300 = true := by decide
theorem test_jp_v0_uses_v0 : (stepOn 0xB210 (regs [(0x0, 0x05), (0x2, 0x40)])).pc = 0x0215 := by decide
theorem test_jp_v0_past_memory : (stepOn 0xBFFF (regs [(0x0, 0xFF)])).pc = 0x10FE := by decide
theorem test_se_imm : (stepOn 0x3542 (regs [(0x5, 0x42)])).pc = 0x0204 ∧ (stepOn 0x3543 (regs [(0x5, 0x42)])).pc = 0x0202 := by
  decide
theorem test_sne_imm : (stepOn 0x4542 (regs [(0x5, 0x42)])).pc = 0x0202 ∧ (stepOn 0x4543 (regs [(0x5, 0x42)])).pc = 0x0204 := by
  decide
theorem test_se_reg : (stepOn 0x5120 (regs [(0x1, 7), (0x2, 7)])).pc = 0x0204 ∧
    (stepOn 0x5120 (regs [(0x1, 7), (0x2, 8)])).pc = 0x0202 := by decide
theorem test_sne_reg : (stepOn 0x9120 (regs [(0x1, 7), (0x2, 8)])).pc = 0x0204 ∧
    (stepOn 0x9330 (regs [(0x3, 7)])).pc = 0x0202 := by decide

/-! ### Arithmetic and logic (B3) -/

theorem test_ld_imm : (stepOn 0x6FAB State.reset).getV 0xF = 0xAB := by decide
theorem test_add_imm_wraps_without_flag : (stepOn 0x7101 (regs [(0x1, 0xFF)])).getV 0x1 = 0x00 ∧
    (stepOn 0x7101 (regs [(0x1, 0xFF)])).getV 0xF = 0 := by decide
theorem test_add_imm_to_vf : (stepOn 0x7F03 (regs [(0xF, 0xFE)])).getV 0xF = 0x01 := by decide
theorem test_ld_reg : (stepOn 0x8120 (regs [(0x2, 0x5A)])).getV 0x1 = 0x5A := by decide
theorem test_or : (stepOn 0x8121 (regs [(0x1, 0xF0), (0x2, 0x0F), (0xF, 1)])).getV 0x1 = 0xFF ∧
    (stepOn 0x8121 (regs [(0x1, 0xF0), (0x2, 0x0F), (0xF, 1)])).getV 0xF = 1 := by decide
theorem test_and : (stepOn 0x8122 (regs [(0x1, 0xF0), (0x2, 0x3C), (0xF, 1)])).getV 0x1 = 0x30 ∧
    (stepOn 0x8122 (regs [(0x1, 0xF0), (0x2, 0x3C), (0xF, 1)])).getV 0xF = 1 := by decide
theorem test_xor : (stepOn 0x8123 (regs [(0x1, 0xF0), (0x2, 0x3C), (0xF, 1)])).getV 0x1 = 0xCC ∧
    (stepOn 0x8113 (regs [(0x1, 0x77)])).getV 0x1 = 0x00 := by decide
theorem test_add_reg_carry : (stepOn 0x8124 (regs [(0x1, 0xFF), (0x2, 0x01)])).getV 0x1 = 0x00 ∧
    (stepOn 0x8124 (regs [(0x1, 0xFF), (0x2, 0x01)])).getV 0xF = 1 ∧
    (stepOn 0x8124 (regs [(0x1, 0x80), (0x2, 0x7F)])).getV 0xF = 0 := by decide
theorem test_add_vf_flag_last : (stepOn 0x8F24 (regs [(0xF, 0x10), (0x2, 0x02)])).getV 0xF = 0x00 ∧
    (stepOn 0x81F4 (regs [(0x1, 0xFF), (0xF, 0x01)])).getV 0x1 = 0x00 := by decide
theorem test_sub : (stepOn 0x8125 (regs [(0x1, 0x10), (0x2, 0x20)])).getV 0x1 = 0xF0 ∧
    (stepOn 0x8125 (regs [(0x1, 0x10), (0x2, 0x20)])).getV 0xF = 0 ∧
    (stepOn 0x8125 (regs [(0x1, 0x05), (0x2, 0x05)])).getV 0xF = 1 := by decide
theorem test_subn : (stepOn 0x8127 (regs [(0x1, 0x10), (0x2, 0x20)])).getV 0x1 = 0x10 ∧
    (stepOn 0x8127 (regs [(0x1, 0x20), (0x2, 0x10)])).getV 0x1 = 0xF0 ∧
    (stepOn 0x8127 (regs [(0x1, 0x20), (0x2, 0x10)])).getV 0xF = 0 := by decide
theorem test_shr_ignores_vy : (stepOn 0x8176 (regs [(0x1, 0x05), (0x7, 0xAA)])).getV 0x1 = 0x02 ∧
    (stepOn 0x8176 (regs [(0x1, 0x05), (0x7, 0xAA)])).getV 0xF = 1 ∧
    (stepOn 0x8176 (regs [(0x1, 0x05), (0x7, 0xAA)])).getV 0x7 = 0xAA := by decide
theorem test_shl : (stepOn 0x812E (regs [(0x1, 0x81), (0x2, 0x55)])).getV 0x1 = 0x02 ∧
    (stepOn 0x812E (regs [(0x1, 0x81), (0x2, 0x55)])).getV 0xF = 1 ∧
    (stepOn 0x812E (regs [(0x1, 0x7F)])).getV 0xF = 0 := by decide
theorem test_shl_vf : (stepOn 0x8F0E (regs [(0xF, 0x81)])).getV 0xF = 0x01 := by decide
theorem test_rnd_masked_to_zero : (stepOn 0xC100 (regs [(0x1, 0x55)])).getV 0x1 = 0x00 :=
  (rfl : _ = Config.rnd 0 &&& 0x00).trans BitVec.and_zero

/-! ### Display (A4, A5, B4) -/

theorem test_drw_pixels : (List.range 6).map (fun r => rowOn (stepOn 0xD015 State.reset) (wrapRow r)) =
    [[0, 1, 2, 3], [0, 3], [0, 3], [0, 3], [0, 1, 2, 3], []] ∧
    rowOn (stepOn 0xD015 (regs [(0x0, 62), (0x1, 30)])) 30 = [0, 1, 62, 63] ∧
    rowOn (stepOn 0xD015 (regs [(0x0, 62), (0x1, 30)])) 0 = [1, 62] ∧
    rowOn (stepOn 0xDF11 { regs [(0xF, 62)] with i := 0x300, mem := [(0x300, 0x80)] }) 0 = [62] := by decide
theorem test_drw_collision_and_bounds :
    rowOn (stepOn 0xD011 { onePixel 0 0 with i := 0x300, mem := [(0x300, 0xC0)] }) 0 = [1] ∧
    (stepOn 0xD011 { onePixel 0 0 with i := 0x300, mem := [(0x300, 0xC0)] }).getV 0xF = 1 ∧
    (stepOn 0xD010 { (onePixel 4 4).setV 0xF 1 with i := 0xFFFF }).getV 0xF = 0 ∧
    rowOn (stepOn 0xD012 { State.reset with i := 0xFFE, mem := [(0xFFE, 0x80), (0xFFF, 0x80)] }) 1 = [0] ∧
    faultedWith (stepOn 0xD013 { State.reset with i := 0xFFE }) .memOutOfBounds 0x0200 0xD013 = true := by decide

/-! ### Index, memory, BCD, timers (B5) -/

theorem test_ld_i : (stepOn 0xAFFF State.reset).i = 0x0FFF := by decide
theorem test_add_i_no_mask : (stepOn 0xF11E { regs [(0x1, 1)] with i := 0x0FFF }).i = 0x1000 := by decide
theorem test_add_i_wraps_without_flag : (stepOn 0xF11E { regs [(0x1, 1)] with i := 0xFFFF }).i = 0x0000 ∧
    (stepOn 0xF11E { regs [(0x1, 1)] with i := 0xFFFF }).getV 0xF = 0 := by decide
theorem test_ld_f : (stepOn 0xF129 (regs [(0x1, 0x0F)])).i = 0x004B ∧ (stepOn 0xF129 (regs [(0x1, 0xFF)])).i = 0x04FB := by decide
theorem test_ld_b : (stepOn 0xF133 { regs [(0x1, 156)] with i := 0x300 }).mem.readBytes 0x300 3 = [1, 5, 6] ∧
    (stepOn 0xF133 { regs [(0x1, 123)] with i := 0xFFD }).mem.readBytes 0xFFD 3 = [1, 2, 3] := by decide
theorem test_ld_b_fault : faultedWith (stepOn 0xF133 { State.reset with i := 0xFFE }) .memOutOfBounds 0x0200 0xF133 = true := by
  decide
theorem test_ld_mem : (stepOn 0xF255 { regs [(0x0, 0x11), (0x1, 0x22), (0x2, 0x33), (0x3, 0x44)] with i := 0x400 }).mem.readBytes 0x400 4 =
    [0x11, 0x22, 0x33, 0x00] := by decide
theorem test_ld_mem_fault : faultedWith (stepOn 0xFF55 { State.reset with i := 0xFF1 }) .memOutOfBounds 0x0200 0xFF55 = true := by
  decide
theorem test_ld_regs_from_the_font : (stepOn 0xF465 State.reset).regBytes 0x5 = [0xF0, 0x90, 0x90, 0x90, 0xF0, 0x00] := by decide
theorem test_ld_regs_fault : faultedWith (stepOn 0xF065 { State.reset with i := 0x1000 }) .memOutOfBounds 0x0200 0xF065 = true := by
  decide
theorem test_ld_vx_dt : (stepOn 0xF107 { State.reset with dt := 0x2A }).getV 0x1 = 0x2A := by decide
theorem test_ld_dt_vx : (stepOn 0xF115 (regs [(0x1, 0x3C)])).dt = 0x3C := by decide
theorem test_ld_st_vx : (stepOn 0xF118 (regs [(0x1, 0x3C)])).st = 0x3C := by decide

/-! ### Input and host operations (B6, A10) -/

theorem test_ld_k_waits_with_a_key_held :
    (stepOn 0xF10A (after [.setKey 5] State.reset)).run = .waitingForKey 1 ∧
    (stepOn 0xF10A (after [.setKey 5] State.reset)).pc = 0x0202 := by decide
theorem test_wait_takes_the_first_key : (after [.setKey 0xA, .setKey 0xB] { State.reset with run := .waitingForKey 1 }).getV 0x1 = 0x0A ∧
    (after [.setKey 0xA, .setKey 0xB] { State.reset with run := .waitingForKey 1 }).run = .running := by decide
theorem test_wait_survives_key_up : (after [.clearKey 5, .tickTimers] { State.reset with run := .waitingForKey 1, dt := 2 }).run =
    .waitingForKey 1 ∧ (after [.clearKey 5, .tickTimers] { State.reset with run := .waitingForKey 1, dt := 2 }).dt = 1 := by decide
theorem test_skp : (stepOn 0xE19E (after [.setKey 0xA] (regs [(0x1, 0x0A)]))).pc = 0x0204 ∧
    (stepOn 0xE19E (regs [(0x1, 0x0A)])).pc = 0x0202 := by decide
theorem test_skp_fault : faultedWith (stepOn 0xE19E (regs [(0x1, 0x10)])) .keyIndexRange 0x0200 0xE19E = true := by decide
theorem test_sknp : (stepOn 0xE1A1 (regs [(0x1, 0x0A)])).pc = 0x0204 ∧
    (stepOn 0xE1A1 (after [.setKey 0xA] (regs [(0x1, 0x0A)]))).pc = 0x0202 := by decide
theorem test_sknp_fault : faultedWith (stepOn 0xE1A1 (regs [(0x1, 0x10)])) .keyIndexRange 0x0200 0xE1A1 = true := by decide
theorem test_tick_stops_at_zero : (after [.tickTimers, .tickTimers] { State.reset with dt := 1, st := 3 }).dt = 0 ∧
    (after [.tickTimers, .tickTimers] { State.reset with dt := 1, st := 3 }).st = 1 := by decide
theorem test_load_keeps_the_tail : (after [.loadProgram [1, 2, 3, 4], .loadProgram [5, 6]] State.reset).mem.readBytes 0x200 5 =
    [5, 6, 3, 4, 0] := by decide
theorem test_reset_keeps_memory_and_keys :
    (after [.setKey 3, .reset] { State.reset with mem := [(0x000, 0x01), (0x300, 0x77)] }).mem = [(0x300, 0x77)] ∧
    (after [.setKey 3, .reset] State.reset).keyDown 3 = true := by decide
theorem test_outputs : State.reset.faultRecordOut = (0, 0, 0) ∧ (onePixel 1 2).displayPort 66 = true ∧
    ({ State.reset with run := .waitingForKey 4 } : State).waitRegOut = some 4 := by decide

/-! ### Witnesses: for every statement with hypotheses, a state and operands that meet all of them -/

/-- The power-on state at an address. -/
def atPc (a : Word) : State := { State.reset with pc := a }

/-- The power-on state in a key wait for V3. -/
def waiting : State := { State.reset with run := .waitingForKey 0x3 }

/-- The power-on state, faulted. -/
def broken : State := State.reset.raise .undefinedInstruction 0x00E1

theorem witness_EncodeOfDecodeGivesTheWord : decodeWord 0x8F26 = .instr (.shr 0xF 0x2) := by decide
theorem witness_OpcodeRowsDoNotOverlap : (⟨"CLS", 0xF0FF, 0x00E0⟩ : OpcodeRow) ∈ opcodeMap ∧
    (⟨"CLS", 0xF0FF, 0x00E0⟩ : OpcodeRow).selects 0x0FE0 = true := by decide
theorem witness_IgnoredBitsChangeNothing : 0 < (deep 1).sp.val := by decide
theorem witness_FetchIsBigEndianAtAnyAddress : (atPc 0x0FFE).pc.toNat ≤ 0xFFE ∧ (atPc 0x0201).pc.toNat ≤ 0xFFE := by decide
theorem witness_FetchOutOfBoundsFaults_out : (atPc 0x0FFF).run = .running ∧ 0xFFF ≤ (atPc 0x0FFF).pc.toNat := by decide
theorem witness_FetchOutOfBoundsFaults_in : (atPc 0x0FFE).run = .running ∧ (atPc 0x0FFE).pc.toNat ≤ 0xFFE := by decide
theorem witness_StepRunsTheDecodedInstruction : (State.reset.withFetchWord 16 0x1200).run = .running ∧
    (State.reset.withFetchWord 16 0x1200).fetch = some 0x1200 ∧ decodeWord 0x1200 = .instr (.jp 0x200) := by decide
theorem witness_UndefinedWordFaults : State.reset.run = .running ∧ State.reset.pc.toNat ≤ 0xFFE ∧
    legalWord (BitVec.ofNat 16 State.reset.wordAtPc) = false := by decide
theorem witness_StepIsIgnoredWhileWaitingOrFaulted : waiting.run = .waitingForKey 0x3 ∧ broken.run = .faulted := by decide
theorem witness_StepFaultsExactly_none : (State.reset.withFetchWord 16 0x00E0).run = .running ∧
    stepFault (State.reset.withFetchWord 16 0x00E0) = .none := by decide
theorem witness_StepFaultsExactly_fetch : (atPc 0x0FFF).run = .running ∧ stepFault (atPc 0x0FFF) = .memOutOfBounds := by decide
theorem witness_StepFaultsExactly_decode : stepFault State.reset = .undefinedInstruction := by decide
theorem witness_StepFaultsExactly_stack : stepFault (State.reset.withFetchWord 16 0x00EE) = .stackUnderflow ∧
    stepFault ((deep 16).withFetchWord 16 0x2300) = .stackOverflow := by decide
theorem witness_StepFaultsExactly_memory : stepFault (State.withFetchWord { State.reset with i := 0xFFF } 16 0xD002) = .memOutOfBounds ∧
    stepFault (State.withFetchWord { State.reset with i := 0xFFE } 16 0xF033) = .memOutOfBounds ∧
    stepFault (State.withFetchWord { State.reset with i := 0xFFF } 16 0xF155) = .memOutOfBounds ∧
    stepFault (State.withFetchWord { State.reset with i := 0x1000 } 16 0xF065) = .memOutOfBounds := by decide
theorem witness_StepFaultsExactly_key : stepFault ((regs [(0x1, 16)]).withFetchWord 16 0xE19E) = .keyIndexRange := by decide
theorem witness_RetPopsOrUnderflows : (deep 1).sp.val ≠ 0 ∧ (deep 16).sp.val ≠ 0 ∧ (deep 0).sp.val = 0 := by decide
theorem witness_CallPushesOrOverflows : (deep 0).sp.val ≠ 16 ∧ (deep 15).sp.val ≠ 16 ∧ (deep 16).sp.val = 16 := by decide
theorem witness_CallThenReturnRestoresPcAndDepth : (deep 15).sp.val < 16 := by decide
theorem witness_JumpToItselfIsAFixedPoint : (State.reset.withFetchWord 16 0x1200).endedNormally = true ∧
    ((atPc 0x0FFE).withFetchWord 16 0x1FFE).endedNormally = true := by decide
theorem witness_destination_is_not_VF : (0x0 : Reg) ≠ 0xF ∧ (0xE : Reg) ≠ 0xF := by decide
theorem witness_bit_and_row_numbers : 7 < 8 ∧ 14 < (0xF : Nibble).toNat := by decide
theorem witness_DrwXors_inRange : (0x0 : Nibble).toNat = 0 ∧
    ({ State.reset with i := 0xFF1 } : State).i.toNat + (0xF : Nibble).toNat - 1 ≤ 0xFFF := by decide
theorem witness_DrwXors_fault : 0 < (0x1 : Nibble).toNat ∧
    0xFFF < ({ State.reset with i := 0x1000 } : State).i.toNat + (0x1 : Nibble).toNat - 1 := by decide
theorem witness_DrwXors_under_the_sprite : UnderSprite 63 31 1 1 0 0 := by unfold UnderSprite; decide
theorem witness_DrwXors_outside_the_sprite : ∀ row < (0x1 : Nibble).toNat, ∀ col < 8, ¬ UnderSprite 0 0 row col 1 0 := by
  unfold UnderSprite; decide
theorem witness_FaultedDrw : 0 < (0x2 : Nibble).toNat ∧
    0xFFF < ({ State.reset with i := 0xFFF } : State).i.toNat + (0x2 : Nibble).toNat - 1 := by decide
theorem witness_DrawingTwiceRestoresTheDisplay : (0xE : Reg) ≠ 0xF ∧ (0x0 : Reg) ≠ 0xF ∧
    State.reset.i.toNat + (0x5 : Nibble).toNat - 1 ≤ 0xFFF := by decide
theorem witness_LdB_inRange : State.reset.mem.wf = true ∧ ({ State.reset with i := 0xFFD } : State).i.toNat + 2 ≤ 0xFFF := by decide
theorem witness_LdB_fault : 0xFFF < ({ State.reset with i := 0xFFE } : State).i.toNat + 2 := by decide
theorem witness_LdMem_inRange : State.reset.mem.wf = true ∧
    ({ State.reset with i := 0xFF0 } : State).i.toNat + (0xF : Reg).toNat ≤ 0xFFF ∧ (0xF : Reg).toNat ≤ (0xF : Reg).toNat := by decide
theorem witness_LdMem_fault : 0xFFF < ({ State.reset with i := 0xFF1 } : State).i.toNat + (0xF : Reg).toNat := by decide
theorem witness_stores_outside : 0x2FF < 0x300 ∧ 0x300 + 2 < 0x303 := by decide
theorem witness_LdRegs_inRange : ({ State.reset with i := 0xFFF } : State).i.toNat + (0x0 : Reg).toNat ≤ 0xFFF ∧
    (0x0 : Reg).toNat ≤ (0x0 : Reg).toNat := by decide
theorem witness_LdRegs_fault : 0xFFF < ({ State.reset with i := 0x1000 } : State).i.toNat + (0x0 : Reg).toNat := by decide
theorem witness_FaultedStores : State.reset.mem.wf = true ∧ 0xFFF < ({ State.reset with i := 0xFFE } : State).i.toNat + 2 ∧
    0xFFF < ({ State.reset with i := 0xFFF } : State).i.toNat + (0x1 : Reg).toNat := by decide
theorem witness_FaultedLoad : 0xFFF < ({ State.reset with i := 0xFFF } : State).i.toNat + (0x1 : Reg).toNat := by decide
theorem witness_StoreThenLoad : State.reset.mem.wf = true ∧
    ({ State.reset with i := 0xFF0 } : State).i.toNat + (0xF : Reg).toNat ≤ 0xFFF := by decide
theorem witness_FetchSeesStoredBytes : State.reset.mem.wf = true ∧
    ({ State.reset with i := 0x200 } : State).i.toNat + (0x1 : Reg).toNat ≤ 0xFFF ∧ (0x0 : Reg).toNat + 1 = (0x1 : Reg).toNat ∧
    (0x1 : Reg).toNat ≤ (0x1 : Reg).toNat ∧
    ({ State.reset with i := 0x200 } : State).pc.toNat = ({ State.reset with i := 0x200 } : State).i.toNat + (0x0 : Reg).toNat := by decide
theorem witness_KeySkips_key : (regs [(0x1, 15)]).keys[((regs [(0x1, 15)]).getV 0x1).toNat]? = some false ∧
    (after [.setKey 0xF] (regs [(0x1, 15)])).keys[((regs [(0x1, 15)]).getV 0x1).toNat]? = some true := by decide
theorem witness_KeySkips_fault : 15 < ((regs [(0x1, 16)]).getV 0x1).toNat := by decide
theorem witness_KeyWaitHolds : waiting.run = .waitingForKey 0x3 ∧ ∀ op ∈ [HostOp.step, .tickTimers, .clearKey 0x3],
    op = .step ∨ op = .tickTimers ∨ ∃ k, op = .clearKey k :=
  ⟨rfl, by simp⟩
theorem witness_host_operations : broken.run = .faulted ∧ State.reset.run ≠ .faulted ∧ waiting.run ≠ .faulted ∧
    State.reset.run = .running ∧ waiting.run = .waitingForKey 0x3 ∧ (0x0 : Reg) ≠ 0x3 := by decide
theorem witness_LoadProgram : 3584 < (List.replicate 3585 (0 : Byte)).length ∧ (List.replicate 3584 (0 : Byte)).length ≤ 3584 ∧
    State.reset.mem.wf = true := by
  rw [List.length_replicate, List.length_replicate]; decide
theorem witness_ResetRestoresAllButMemoryAndKeys : Memory.wf [(0x000, 0x01), (0x300, 0x77)] = true := by decide
theorem witness_FaultedIgnoresEverythingButReset : broken.run = .faulted ∧
    ∀ op ∈ [HostOp.step, .tickTimers, .setKey 0x1, .clearKey 0x1, .loadProgram []], op ≠ .reset := by decide

/-- A state of the invariant that is running, one that is waiting, and one that is faulted. -/
theorem witness_Inv_running : State.reset.Inv :=
  ⟨rfl, by simp [State.RecordAgrees, State.reset], fun _ => ⟨by decide, by decide⟩⟩
theorem witness_Inv_deep : (deep 16).Inv := ⟨rfl, by simp [State.RecordAgrees, deep, State.reset], fun _ => ⟨by decide, by decide⟩⟩
theorem witness_Inv_waiting : waiting.Inv :=
  ⟨rfl, by simp [State.RecordAgrees, waiting, State.reset], fun _ => ⟨by decide, by decide⟩⟩
theorem witness_Inv_faulted : broken.Inv := ⟨rfl, by unfold State.RecordAgrees; rw [if_pos (by decide)]; decide, fun h => absurd rfl h⟩
theorem witness_EveryStepKeepsTheInvariant : State.reset.Inv ∧ step State.reset = .next (State.reset.advance.raise .undefinedInstruction 0x0000) :=
  ⟨witness_Inv_running, rfl⟩

theorem witness_OnlyClsAndDrw : ∃ t, exec (.cls 0x0) (onePixel 0 0) = .next t ∧ t.disp ≠ (onePixel 0 0).disp :=
  ⟨_, rfl, by decide⟩
theorem witness_OnlyTheStores : ∃ t, exec (.ldBVx 0x0) { regs [(0x0, 255)] with i := 0x300 } = .next t ∧ t.mem ≠ (regs [(0x0, 255)]).mem :=
  ⟨_, rfl, by decide⟩
theorem witness_OnlyThreeInstructionsWriteI : ∃ t, exec (.ldI 0x300) State.reset = .next t ∧ t.i ≠ State.reset.i := ⟨_, rfl, by decide⟩
theorem witness_OnlyCallAndRet_call : ∃ t, exec (.call 0x300) (atPc 0x0202) = .next t ∧ t.stack ≠ (atPc 0x0202).stack ∧
    t.sp ≠ (atPc 0x0202).sp := ⟨_, rfl, by decide, by decide⟩
theorem witness_OnlyCallAndRet_ret : ∃ t, exec (.ret 0x0) (deep 1) = .next t ∧ t.sp ≠ (deep 1).sp := ⟨_, rfl, by decide⟩
theorem witness_OnlyTimerMoves_dt : ∃ t, exec (.ldDtVx 0x1) (regs [(0x1, 1)]) = .next t ∧ t.dt ≠ (regs [(0x1, 1)]).dt :=
  ⟨_, rfl, by decide⟩
theorem witness_OnlyTimerMoves_st : ∃ t, exec (.ldStVx 0x1) (regs [(0x1, 1)]) = .next t ∧ t.st ≠ (regs [(0x1, 1)]).st :=
  ⟨_, rfl, by decide⟩
theorem witness_OnlyTheFlagInstructions : ∃ t, exec (.addReg 0x1 0x2) (regs [(0x1, 0xFF), (0x2, 1)]) = .next t ∧
    t.getV 0xF ≠ (regs [(0x1, 0xFF), (0x2, 1)]).getV 0xF := ⟨_, rfl, by decide⟩
theorem witness_SoundTimer : (∃ x, Instr.ldStVx 0x1 = .ldStVx x) ∧ ¬ ∃ x, Instr.ldDtVx 0x1 = .ldStVx x :=
  ⟨⟨_, rfl⟩, by simp⟩

end Sys2Proof.Tests
end

/-! The invariant (10_state.md R35, 60_exceptions.md R261) over the host's operations: each of the six answers with a next
state that has it again, so every schedule does. -/

namespace Sys2Proof.Machine

/-! ### Showing the invariant of a state -/

/-- A faulted state owes the invariant only its memory and a cause. -/
theorem State.Inv.of_faulted {t : State} (hmem : t.mem.wf = true) (hrun : t.run = .faulted)
    (hcause : t.faultCause ≠ .none) : t.Inv :=
  ⟨hmem, by rw [State.RecordAgrees, if_pos hrun]; exact hcause, fun h => absurd hrun h⟩

/-- A state that is not faulted owes an empty record and its control in range. -/
theorem State.Inv.of_live {t : State} (hmem : t.mem.wf = true) (hrun : t.run ≠ .faulted)
    (hrec : t.faultCause = .none ∧ t.faultPc = 0 ∧ t.faultOpcode = 0) (hctl : t.ControlInRange) : t.Inv :=
  ⟨hmem, by rw [State.RecordAgrees, if_neg hrun]; exact hrec, fun _ => hctl⟩

/-- What the invariant gives in a state that is not faulted. -/
theorem State.Inv.live {s : State} (hs : s.Inv) (hrun : s.run ≠ .faulted) :
    s.mem.wf = true ∧ (s.faultCause = .none ∧ s.faultPc = 0 ∧ s.faultOpcode = 0) ∧ s.ControlInRange := by
  obtain ⟨hmem, hrec, hctl⟩ := hs
  rw [State.RecordAgrees, if_neg hrun] at hrec
  exact ⟨hmem, hrec, hctl hrun⟩

/-- An operation that leaves the core not faulted, and the record, `pc` and the stack alone, keeps the invariant if it
keeps memory canonical. -/
theorem State.Inv.of_frame {s t : State} (hs : s.Inv) (hrun : s.run ≠ .faulted) (hrun' : t.run ≠ .faulted)
    (hmem : s.mem.wf = true → t.mem.wf = true)
    (hframe : t = { s with v := t.v, dt := t.dt, st := t.st, keys := t.keys, run := t.run, mem := t.mem }) : t.Inv := by
  obtain ⟨hm, hrec, hctl⟩ := hs.live hrun
  refine .of_live (hmem hm) hrun' ?_ ?_
  · rw [hframe]; exact hrec
  · rw [hframe]; exact hctl

/-- A fault with a cause, taken where memory is canonical, ends in the invariant. -/
theorem State.inv_raise {s : State} (hmem : s.mem.wf = true) {c : FaultCause} (hc : c ≠ .none) (op : Word) :
    (s.raise c op).Inv := .of_faulted hmem rfl hc

/-- A latched record with a cause, where memory is canonical, ends in the invariant. -/
theorem State.inv_latchFault {s : State} (hmem : s.mem.wf = true) {c : FaultCause} (hc : c ≠ .none) (a op : Word) :
    (s.latchFault c a op).Inv := .of_faulted hmem rfl hc

/-- An operation ignored in FAULTED (60_exceptions.md R270) keeps the invariant if it does so elsewhere. -/
theorem State.inv_unlessFaulted {s t : State} (hs : s.Inv) (ht : s.run ≠ .faulted → t.Inv) : (s.unlessFaulted t).Inv := by
  by_cases hrun : s.run = .faulted
  · rw [State.unlessFaulted_faulted hrun]; exact hs
  · rw [State.unlessFaulted_live hrun]; exact ht hrun

/-! ### The step operation -/

/-- A fetch that reads a word was at 0xFFE or below. -/
theorem State.pc_le_of_fetch {s : State} {op : Word} (h : s.fetch = some op) : s.pc.toNat ≤ 0xFFE := by
  by_contra hpc
  rw [State.fetch_outOfRange (by omega)] at h
  cases h

/-- Adding 2 to a program counter up to 0x1000 does not wrap: neither the advance from an address that was fetched nor a
skip after it does. -/
theorem word_add_two_toNat {w : Word} (h : w.toNat ≤ 0x1000) : (w + 2).toNat = w.toNat + 2 := by
  rw [BitVec.toNat_add, show (2 : Word).toNat = 2 from rfl]
  omega

/-- An instruction that completes leaves control in range: what it can push is the advanced `pc`, at most 0x1000, and
the furthest it can go is a skip from there, the top of `JP V0`, or a return address that was in range. -/
theorem Completes.controlInRange {s t : State} (hc : Completes s.advance t) (hpc : s.pc.toNat ≤ 0xFFE)
    (hs : s.ControlInRange) : t.ControlInRange := by
  have hadv : s.advance.pc.toNat = s.pc.toNat + 2 := word_add_two_toNat (by omega)
  obtain ⟨-, hstack⟩ := hs
  constructor
  · rcases hc.pc with h | h | h | ⟨hsp, htop⟩
    · rw [h]; omega
    · rw [h, word_add_two_toNat (by omega)]; omega
    · exact h
    · obtain ⟨hlt, htop⟩ := Vector.getElem?_eq_some_iff.1 htop
      have hlive := hstack ⟨s.sp.val - 1, hlt⟩ (Nat.sub_one_lt (Nat.ne_of_gt hsp))
      rw [← htop]
      exact hlive.2.trans (by decide)
  · intro j hj
    rcases hc.stack j hj with ⟨hlt, he⟩ | ⟨-, he⟩
    · rw [he]; exact hstack j hlt
    · rw [he]; omega

/-- An instruction that completes keeps the invariant. -/
theorem Completes.inv {s t : State} (hc : Completes s.advance t) (hrun : s.run = .running) (hpc : s.pc.toNat ≤ 0xFFE)
    (hs : s.Inv) : t.Inv := by
  obtain ⟨hmem, ⟨hcause, hfpc, hfop⟩, hctl⟩ := hs.live (by simp [hrun])
  obtain ⟨hcause', hfpc', hfop'⟩ := hc.record
  refine .of_live (hc.mem hmem) ?_ ⟨hcause'.trans hcause, hfpc'.trans hfpc, hfop'.trans hfop⟩
    (hc.controlInRange hpc hctl)
  rcases hc.run with h | ⟨x, h⟩
  · rw [h, State.advance_run, hrun]; decide
  · rw [h]; simp

/-- Executing any instruction after its fetch ends in a next state with the invariant, faulted or not. -/
theorem exec_advance_keeps_inv {s : State} (i : Instr) (hrun : s.run = .running) (hpc : s.pc.toNat ≤ 0xFFE)
    (hs : s.Inv) : ∃ t, exec i s.advance = .next t ∧ t.Inv := by
  by_cases h : ownFault i s.advance = .none
  · obtain ⟨t, he, hc⟩ := exec_completing h
    exact ⟨t, he, hc.inv hrun hpc hs⟩
  · obtain ⟨g, he, -, hmem⟩ := exec_faulting h
    exact ⟨_, he, State.inv_raise (hmem hs.1) h _⟩

/-- `step` always ends in a next state, and keeps the invariant (R35). -/
theorem step_keeps_inv {s : State} (hs : s.Inv) : ∃ t, step s = .next t ∧ t.Inv := by
  rcases step_cases s with ⟨-, he⟩ | ⟨-, -, he⟩ | ⟨op, e, -, -, -, he⟩ | ⟨op, i, hrun, hfetch, -, he⟩
  · exact ⟨s, he, hs⟩
  · exact ⟨_, he, State.inv_latchFault hs.1 (by decide) _ _⟩
  · exact ⟨_, he, State.inv_raise (s := s.advance) hs.1 (by decide) op⟩
  · rw [he]; exact exec_advance_keeps_inv i hrun (State.pc_le_of_fetch hfetch) hs

/-! ### The other host operations -/

theorem State.resetOp_keeps_inv {s : State} (hs : s.Inv) : s.resetOp.Inv := by
  refine .of_live ?_ (by simp) ⟨rfl, rfl, rfl⟩ ⟨by simp, fun j hj => ?_⟩
  · rw [State.resetOp_mem]
    exact wf_writeBytes _ hs.1 (.inr (by decide))
  · exact absurd hj (Nat.not_lt_zero _)

theorem State.loadProgram_keeps_inv {s : State} (hs : s.Inv) (bytes : List Byte) : (s.loadProgram bytes).Inv := by
  refine State.inv_unlessFaulted hs fun hrun => ?_
  split
  · next hl =>
    have hlen : bytes.length ≤ 3584 := (loadableImage_iff bytes).1 hl
    exact hs.of_frame hrun hrun (fun hm => wf_writeBytes bytes hm (.inr (by simp only [Config.romBase]; omega))) rfl
  · exact State.inv_latchFault hs.1 (by decide) _ _

theorem State.tickTimers_keeps_inv {s : State} (hs : s.Inv) : s.tickTimers.Inv :=
  State.inv_unlessFaulted hs fun hrun => hs.of_frame hrun hrun id rfl

theorem State.setKey_keeps_inv {s : State} (hs : s.Inv) (k : Key) : (s.setKey k).Inv := by
  cases hrun : s.run with
  | running =>
    rw [State.setKey_running hrun]
    have hlive : s.run ≠ .faulted := by simp [hrun]
    exact hs.of_frame hlive hlive id rfl
  | waitingForKey x =>
    rw [State.setKey_waiting hrun]
    exact hs.of_frame (by simp [hrun]) (by simp) id rfl
  | faulted => rw [State.setKey, State.unlessFaulted_faulted hrun]; exact hs

theorem State.clearKey_keeps_inv {s : State} (hs : s.Inv) (k : Key) : (s.clearKey k).Inv :=
  State.inv_unlessFaulted hs fun hrun => hs.of_frame hrun hrun id rfl

/-- Each of the six operations (46_host_operations.md R235) ends in a next state with the invariant. -/
theorem applyOp_keeps_inv (op : HostOp) {s : State} (hs : s.Inv) : ∃ t, applyOp op s = .next t ∧ t.Inv := by
  cases op with
  | reset => exact ⟨_, rfl, State.resetOp_keeps_inv hs⟩
  | loadProgram bytes => exact ⟨_, rfl, State.loadProgram_keeps_inv hs bytes⟩
  | step => exact step_keeps_inv hs
  | tickTimers => exact ⟨_, rfl, State.tickTimers_keeps_inv hs⟩
  | setKey k => exact ⟨_, rfl, State.setKey_keeps_inv hs k⟩
  | clearKey k => exact ⟨_, rfl, State.clearKey_keeps_inv hs k⟩

/-! ### Schedules -/

/-- An operation that ends in a next state hands it to the rest of the schedule. -/
theorem runOps_cons {op : HostOp} {s t : State} (h : applyOp op s = .next t) (ops : List HostOp) :
    runOps (op :: ops) s = runOps ops t := by
  simp only [runOps, h]

/-- Settles O53, by induction on the schedule: every operation ends in a next state with the invariant. -/
theorem everyScheduleKeepsTheInvariant : Obligations.EveryScheduleKeepsTheInvariant := by
  unfold Obligations.EveryScheduleKeepsTheInvariant
  intro ops
  induction ops with
  | nil => exact fun s hs => ⟨s, rfl, hs⟩
  | cons op ops ih =>
    intro s hs
    obtain ⟨t, he, ht⟩ := applyOp_keeps_inv op hs
    rw [runOps_cons he]
    exact ih t ht

end Sys2Proof.Machine

/-! The state (10_state.md R20 to R40): power-on, the step lemma of the invariant, and which instruction writes which part
of the state. -/

namespace Sys2Proof.Machine

/-! ### The invariant -/

/-- Settles O52: a step of a state with the invariant answers one state, and that one has it. -/
theorem everyStepKeepsTheInvariant : Obligations.EveryStepKeepsTheInvariant := by
  unfold Obligations.EveryStepKeepsTheInvariant
  intro s t hs h
  obtain ⟨t', he, ht'⟩ := step_keeps_inv hs
  obtain rfl : t' = t := Host.Outcome.next.inj (he.symm.trans h)
  exact ht'

/-- Settles O51: nothing is listed in memory, the record is empty, `pc` is 0x200 and no return address is live. -/
theorem invariantHoldsAfterPowerOn : Obligations.InvariantHoldsAfterPowerOn := by
  unfold Obligations.InvariantHoldsAfterPowerOn
  exact .of_live rfl (by decide) ⟨rfl, rfl, rfl⟩ ⟨by decide, fun j hj => absurd hj (Nat.not_lt_zero _)⟩

/-! ### Power-on -/

/-- The font fills the addresses 0x000 to 0x04F (20_memory.md R62). -/
theorem font_length : Config.font.length = 80 := by decide

/-- After power-on the font reads from address 0 upward (R40). -/
theorem powerOnByte_font {a : Nat} (h : a < Config.font.length) : powerOnByte a = Config.font[a] := by
  simp [powerOnByte, h]

/-- After power-on every byte above the font reads 0x00 (R40). -/
theorem powerOnByte_above {a : Nat} (h : 0x050 ≤ a) : powerOnByte a = 0 :=
  List.getD_eq_default _ _ (by rw [font_length]; exact h)

/-- Settles O50: memory lists no cell, so it reads as the font and zeros; the vectors are replicated zeros. -/
theorem powerOnState : Obligations.PowerOnState := by
  unfold Obligations.PowerOnState
  refine ⟨rfl, rfl, fun k h => powerOnByte_font h, font_length, by decide, fun a h => powerOnByte_above h, fun r => ?_,
    rfl, rfl, fun j => ?_, rfl, rfl, pixel_blank, fun k => ?_, rfl, rfl, rfl⟩
  · simp [State.reset, State.getV]
  · simp [State.reset]
  · simp [State.reset, State.keyDown]

/-! ### The fields a fault does not write -/

/-- The frame of a fault as an equation between the two states. -/
theorem State.OnlyFault.eq {s t : State} (h : s.OnlyFault t) :
    t = { s with run := t.run, faultCause := t.faultCause, faultPc := t.faultPc, faultOpcode := t.faultOpcode,
                 pc := t.pc, draws := t.draws } := h

theorem State.OnlyFault.v {s t : State} (h : s.OnlyFault t) : t.v = s.v := by rw [h.eq]
theorem State.OnlyFault.i {s t : State} (h : s.OnlyFault t) : t.i = s.i := by rw [h.eq]
theorem State.OnlyFault.sp {s t : State} (h : s.OnlyFault t) : t.sp = s.sp := by rw [h.eq]
theorem State.OnlyFault.stack {s t : State} (h : s.OnlyFault t) : t.stack = s.stack := by rw [h.eq]
theorem State.OnlyFault.dt {s t : State} (h : s.OnlyFault t) : t.dt = s.dt := by rw [h.eq]
theorem State.OnlyFault.st {s t : State} (h : s.OnlyFault t) : t.st = s.st := by rw [h.eq]
theorem State.OnlyFault.disp {s t : State} (h : s.OnlyFault t) : t.disp = s.disp := by rw [h.eq]
theorem State.OnlyFault.keys {s t : State} (h : s.OnlyFault t) : t.keys = s.keys := by rw [h.eq]
theorem State.OnlyFault.mem {s t : State} (h : s.OnlyFault t) : t.mem = s.mem := by rw [h.eq]

/-! ### What an instruction may write -/

/-- `s` with what the instruction may write of its own taken from `t` (R20 to R28, R74): the registers, the display, the
stack and its pointer, I, memory or a timer. -/
def State.withWritesOf (s : State) (i : Instr) (t : State) : State :=
  match i with
  | .ldImm _ _ | .addImm _ _ | .ldReg _ _ | .orReg _ _ | .andReg _ _ | .xorReg _ _ | .addReg _ _ | .subReg _ _ | .shr _ _
  | .subn _ _ | .shl _ _ | .rnd _ _ | .ldVxDt _ | .ldVxMem _ => { s with v := t.v }
  | .drw _ _ _ => { s with v := t.v, disp := t.disp }
  | .cls _ => { s with disp := t.disp }
  | .call _ => { s with stack := t.stack, sp := t.sp }
  | .ret _ => { s with sp := t.sp }
  | .ldI _ | .addIVx _ | .ldFVx _ => { s with i := t.i }
  | .ldBVx _ | .ldMemVx _ => { s with mem := t.mem }
  | .ldDtVx _ => { s with dt := t.dt }
  | .ldStVx _ => { s with st := t.st }
  | .jp _ | .jpV0 _ | .seImm _ _ | .sneImm _ _ | .seReg _ _ | .sneReg _ _ | .skp _ | .sknp _ | .ldVxK _ => s

/-- A skip changes the program counter only. -/
theorem State.skipIf_frame (s : State) (c : Bool) : s.skipIf c = { s with pc := (s.skipIf c).pc } := by cases c <;> rfl

/-- Beside what it writes of its own, an instruction changes at most what a fault does: the program counter, the run state,
the record and the count of draws. -/
theorem exec_frame {i : Instr} {s t : State} (h : exec i s = .next t) : (s.withWritesOf i t).OnlyFault t := by
  unfold State.OnlyFault
  cases i
  case ret u =>
    simp only [exec, execRet] at h
    split at h
    · next e => cases h; rw [State.pop_frame e]; rfl
    · cases h; rfl
  case call nnn =>
    simp only [exec, execCall] at h
    split at h
    · next e => cases h; rw [State.push_frame e]; rfl
    · cases h; rfl
  case seImm | sneImm | seReg | sneReg => cases h; rw [State.skipIf_frame]; rfl
  case skp x =>
    simp only [exec, execSkp] at h
    split at h
    · cases h; rw [State.skipIf_frame]; rfl
    · cases h; rfl
  case sknp x =>
    simp only [exec, execSknp] at h
    split at h
    · cases h; rw [State.skipIf_frame]; rfl
    · cases h; rfl
  case drw x y n =>
    simp only [exec, execDrw] at h
    split at h
    · cases h; rfl
    · cases h; rfl
  case ldBVx | ldMemVx => cases h; rw [State.storeBlock_frame]; rfl
  case ldVxMem x =>
    simp only [exec, execLdVxMem] at h
    split at h
    · cases h; rw [State.loadRegs_frame]; rfl
    · cases h; rfl
  all_goals cases h; rfl

/-! ### Display, I, stack, keys and timers -/

/-- Settles O54: the frame of every other instruction keeps the display. -/
theorem onlyClsAndDrwWriteTheDisplay : Obligations.OnlyClsAndDrwWriteTheDisplay := by
  unfold Obligations.OnlyClsAndDrwWriteTheDisplay
  intro i s t h hne
  have hdisp : t.disp = (s.withWritesOf i t).disp := (exec_frame h).disp
  cases i
  case cls u => exact .inl ⟨u, rfl⟩
  case drw x y n => exact .inr ⟨x, y, n, rfl⟩
  all_goals exact absurd hdisp hne

/-- Settles O56: the frame of every other instruction keeps I. -/
theorem onlyThreeInstructionsWriteI : Obligations.OnlyThreeInstructionsWriteI := by
  unfold Obligations.OnlyThreeInstructionsWriteI
  intro i s t h hne
  have hi : t.i = (s.withWritesOf i t).i := (exec_frame h).i
  cases i
  case ldI nnn => exact .inl ⟨nnn, rfl⟩
  case addIVx x => exact .inr (.inl ⟨x, rfl⟩)
  case ldFVx x => exact .inr (.inr ⟨x, rfl⟩)
  all_goals exact absurd hi hne

/-- Settles O57: the frame of every instruction but `CALL` keeps the stack, that of every instruction but `CALL` and `RET`
keeps SP. -/
theorem onlyCallAndRetWriteTheStack : Obligations.OnlyCallAndRetWriteTheStack := by
  unfold Obligations.OnlyCallAndRetWriteTheStack
  intro i s t h
  have hstack : t.stack = (s.withWritesOf i t).stack := (exec_frame h).stack
  have hsp : t.sp = (s.withWritesOf i t).sp := (exec_frame h).sp
  cases i
  case call nnn => exact ⟨fun _ => ⟨nnn, rfl⟩, fun _ => .inl ⟨nnn, rfl⟩⟩
  case ret u => exact ⟨absurd hstack, fun _ => .inr ⟨u, rfl⟩⟩
  all_goals exact ⟨absurd hstack, absurd hsp⟩

/-- No instruction writes a key state (R29). -/
theorem exec_keys {i : Instr} {s t : State} (h : exec i s = .next t) : t.keys = s.keys := by
  have hkeys : t.keys = (s.withWritesOf i t).keys := (exec_frame h).keys
  rw [hkeys]
  cases i <;> rfl

/-- No step writes a key state, whether it is ignored, faults before the execution, or executes (R29). -/
theorem step_keys {s t : State} (h : step s = .next t) : t.keys = s.keys := by
  rcases step_cases s with ⟨-, he⟩ | ⟨-, -, he⟩ | ⟨op, e, -, -, -, he⟩ | ⟨op, i, -, -, -, he⟩ <;> rw [he] at h
  · cases h; rfl
  · cases h; rfl
  · cases h; rfl
  · exact (exec_keys h).trans s.advance_keys

/-- Settles O58: the keys over every way a step can end, the timers by the frame of every instruction. -/
theorem stepsNeverWriteKeysAndOnlyTimerMovesWriteTimers :
    Obligations.StepsNeverWriteKeysAndOnlyTimerMovesWriteTimers := by
  unfold Obligations.StepsNeverWriteKeysAndOnlyTimerMovesWriteTimers
  refine ⟨fun s t => step_keys, fun i s t h => ?_⟩
  have hdt : t.dt = (s.withWritesOf i t).dt := (exec_frame h).dt
  have hst : t.st = (s.withWritesOf i t).st := (exec_frame h).st
  cases i
  case ldDtVx x => exact ⟨fun _ => ⟨x, rfl⟩, absurd hst⟩
  case ldStVx x => exact ⟨absurd hdt, fun _ => ⟨x, rfl⟩⟩
  all_goals exact ⟨absurd hdt, absurd hst⟩

/-! ### Registers -/

/-- The registers an instruction may write (R20, R21): its `x`, VF where it has a flag, all up to `x` for the block load. -/
def MayWriteReg (i : Instr) (r : Reg) : Prop :=
  match i with
  | .ldImm x _ | .addImm x _ | .ldReg x _ | .orReg x _ | .andReg x _ | .xorReg x _ | .rnd x _ | .ldVxDt x => r = x
  | .addReg x _ | .subReg x _ | .shr x _ | .subn x _ | .shl x _ => r = regF ∨ r = x
  | .drw _ _ _ => r = regF
  | .ldVxMem x => r.toNat ≤ x.toNat
  | .cls _ | .ret _ | .jp _ | .call _ | .seImm _ _ | .sneImm _ _ | .seReg _ _ | .sneReg _ _ | .ldI _ | .jpV0 _ | .skp _
  | .sknp _ | .ldVxK _ | .ldDtVx _ | .ldStVx _ | .addIVx _ | .ldFVx _ | .ldBVx _ | .ldMemVx _ => False

theorem State.getV_setVFlag_ne (s : State) {x r : Reg} (h : ¬ (r = regF ∨ r = x)) (b : Byte) (f : Bool) :
    (s.setVFlag x b f).getV r = s.getV r := by
  rw [State.getV_setVFlag, if_neg (fun e => h (.inl e)), if_neg (fun e => h (.inr e))]

theorem State.getV_loadRegs_above (s : State) {r : Reg} {n : Nat} (hn : n ≤ 16) (h : n ≤ r.toNat) :
    (s.loadRegs n).getV r = s.getV r := by
  rw [State.getV_loadRegs s r n hn, if_neg (by omega)]

theorem State.getV_loadSomeRegs_above (s : State) {r : Reg} {n : Nat} (hn : n ≤ 16) (h : n ≤ r.toNat) :
    (s.loadSomeRegs n).getV r = s.getV r := by
  have hcount : inRangeCount s.i.toNat n ≤ n := Nat.min_le_left _ _
  rw [State.getV_loadSomeRegs, State.getV_loadRegs_above s (hcount.trans hn) (hcount.trans h), ite_self]

/-- `DRW` writes no register but VF, whether it faults or not (R190, R269). -/
theorem exec_drw_getV {x y r : Reg} {n : Nibble} {s t : State} (h : exec (.drw x y n) s = .next t) (hr : r ≠ regF) :
    t.getV r = s.getV r := by
  simp only [exec, execDrw] at h
  split at h
  · cases h; rw [State.getV_draw, if_neg hr]
  · cases h; rw [State.getV_raise, State.getV_drawSome, if_neg hr]

/-- The block load writes no register above its `x`, whether it faults or not (R205, R269). -/
theorem exec_ldVxMem_getV {x r : Reg} {s t : State} (h : exec (.ldVxMem x) s = .next t) (hr : x.toNat < r.toNat) :
    t.getV r = s.getV r := by
  have hx : x.toNat + 1 ≤ 16 := x.isLt
  simp only [exec, execLdVxMem] at h
  split at h
  · cases h; exact State.getV_loadRegs_above s hx hr
  · cases h; rw [State.getV_raise]; exact State.getV_loadSomeRegs_above s hx hr

/-- A register an instruction may not write keeps its value (R20). -/
theorem exec_getV {i : Instr} {s t : State} {r : Reg} (h : exec i s = .next t) (hr : ¬ MayWriteReg i r) :
    t.getV r = s.getV r := by
  have hv : t.v = (s.withWritesOf i t).v := (exec_frame h).v
  cases i
  case ldImm x _ | addImm x _ | ldReg x _ | orReg x _ | andReg x _ | xorReg x _ | rnd x _ | ldVxDt x =>
    cases h; exact State.getV_setV_ne _ hr _
  case addReg x _ | subReg x _ | shr x _ | subn x _ | shl x _ => cases h; exact State.getV_setVFlag_ne _ hr _ _
  case drw x y n => exact exec_drw_getV h hr
  case ldVxMem x => exact exec_ldVxMem_getV h (Nat.lt_of_not_le hr)
  all_goals exact State.getV_congr hv r

/-- VF is the last register: a register not below it is VF. -/
theorem eq_regF_of_toNat_le {x : Reg} (h : regF.toNat ≤ x.toNat) : x = regF :=
  BitVec.eq_of_toNat_eq (Nat.le_antisymm (Nat.le_of_lt_succ x.isLt) h)

/-- Settles O59: VF must be a register the instruction may write, and those are listed case by case. -/
theorem onlyTheFlagInstructionsWriteVFImplicitly : Obligations.OnlyTheFlagInstructionsWriteVFImplicitly := by
  unfold Obligations.OnlyTheFlagInstructionsWriteVFImplicitly
  intro i s t h hne
  have hw : MayWriteReg i regF := by_contra fun hr => hne (exec_getV h hr)
  cases i
  case ldImm x _ | addImm x _ | ldReg x _ | orReg x _ | andReg x _ | xorReg x _ | rnd x _ | ldVxDt x =>
    obtain rfl : regF = x := hw
    simp
  case ldVxMem x => simp [eq_regF_of_toNat_le hw]
  case addReg | subReg | shr | subn | shl | drw => simp
  all_goals exact absurd hw id

/-! ### The sound timer -/

/-- `s` with another value in the sound timer. -/
def State.withSt (s : State) (b : Byte) : State := { s with st := b }

theorem State.getV_withSt (s : State) (b : Byte) (r : Reg) : (s.withSt b).getV r = s.getV r := rfl

theorem State.keyDown_withSt (s : State) (b : Byte) (k : Key) : (s.withSt b).keyDown k = s.keyDown k := rfl

theorem State.push_withSt (s : State) (b : Byte) : (s.withSt b).push = s.push.map (·.withSt b) := by
  by_cases h : s.sp.val < 16
  · rw [State.push_room h]
    exact State.push_room (s := s.withSt b) h
  · have hfull : s.sp.val = 16 := by omega
    rw [State.push_full hfull]
    exact State.push_full (s := s.withSt b) hfull

theorem State.pop_withSt (s : State) (b : Byte) : (s.withSt b).pop = s.pop.map (·.withSt b) := by
  unfold State.pop
  by_cases h : 0 < s.sp.val
  · rw [dif_pos h]
    exact dif_pos h
  · rw [dif_neg h]
    exact dif_neg h

theorem State.skipIf_withSt (s : State) (b : Byte) (c : Bool) : (s.withSt b).skipIf c = (s.skipIf c).withSt b := by
  cases c <;> rfl

theorem State.storeBlock_withSt (s : State) (b : Byte) (op : Word) (bytes : List Byte) :
    (s.withSt b).storeBlock op bytes = (s.storeBlock op bytes).withSt b := by
  by_cases h : blockInRange s.i.toNat bytes.length = true
  · rw [State.storeBlock_inRange op h]
    exact State.storeBlock_inRange (s := s.withSt b) op h
  · have hout : blockInRange s.i.toNat bytes.length = false := by simpa using h
    rw [State.storeBlock_fault op hout]
    exact State.storeBlock_fault (s := s.withSt b) op hout

theorem State.loadRegs_withSt (s : State) (b : Byte) : ∀ n, (s.withSt b).loadRegs n = (s.loadRegs n).withSt b
  | 0 => rfl
  | n + 1 => by rw [State.loadRegs_succ, State.loadRegs_succ, State.loadRegs_withSt s b n]; rfl

theorem State.loadSomeRegs_withSt (s : State) (b : Byte) (n : Nat) :
    (s.withSt b).loadSomeRegs n = (s.loadSomeRegs n).withSt b := by
  unfold State.loadSomeRegs
  rw [State.loadRegs_withSt]
  rfl

/-- Every instruction answers with a next state. -/
theorem exec_next (i : Instr) (s : State) : ∃ t, exec i s = .next t := by
  by_cases h : ownFault i s = .none
  · obtain ⟨t, he, -⟩ := exec_completing h
    exact ⟨t, he⟩
  · obtain ⟨g, he, -⟩ := exec_faulting h
    exact ⟨_, he⟩

/-- Every instruction but `LD ST, Vx` does the same to two states that differ in the sound timer, and keeps the difference
(R27). -/
theorem exec_withSt {i : Instr} {s t : State} (b : Byte) (hi : ¬ ∃ x, i = .ldStVx x) (h : exec i s = .next t) :
    exec i (s.withSt b) = .next (t.withSt b) := by
  cases i
  case ldStVx x => exact absurd ⟨x, rfl⟩ hi
  case ret u =>
    simp only [exec, execRet, State.pop_withSt] at h ⊢
    split at h
    · next hp => cases h; rw [hp]; rfl
    · next hp => cases h; rw [hp]; rfl
  case call nnn =>
    simp only [exec, execCall, State.push_withSt] at h ⊢
    split at h
    · next hp => cases h; rw [hp]; rfl
    · next hp => cases h; rw [hp]; rfl
  case seImm | sneImm | seReg | sneReg => cases h; exact congrArg _ (State.skipIf_withSt s b _)
  case skp x =>
    simp only [exec, execSkp, State.getV_withSt, State.keyDown_withSt, State.skipIf_withSt] at h ⊢
    split at h
    · cases h; rfl
    · cases h; rfl
  case sknp x =>
    simp only [exec, execSknp, State.getV_withSt, State.keyDown_withSt, State.skipIf_withSt] at h ⊢
    split at h
    · cases h; rfl
    · cases h; rfl
  case drw x y n =>
    simp only [exec, execDrw] at h ⊢
    split at h
    · next hr => cases h; exact if_pos hr
    · next hr => cases h; exact if_neg hr
  case ldBVx | ldMemVx => cases h; exact congrArg _ (State.storeBlock_withSt s b _ _)
  case ldVxMem x =>
    simp only [exec, execLdVxMem, State.loadRegs_withSt, State.loadSomeRegs_withSt] at h ⊢
    split at h
    · next hr => cases h; exact if_pos hr
    · next hr => cases h; exact if_neg hr
  all_goals cases h; rfl

/-- Settles O60: `LD ST, Vx` overwrites the sound timer in both runs, every other instruction keeps the difference. -/
theorem soundTimerIsNeverRead : Obligations.SoundTimerIsNeverRead := by
  unfold Obligations.SoundTimerIsNeverRead
  intro i s b
  obtain ⟨t, ht⟩ := exec_next i s
  by_cases hi : ∃ x, i = .ldStVx x
  · obtain ⟨x, rfl⟩ := hi
    refine ⟨t, t.st, ht, ?_, fun _ => rfl, fun hne => absurd ⟨x, rfl⟩ hne⟩
    cases ht; rfl
  · exact ⟨t, b, ht, exec_withSt b hi ht, fun h => absurd h hi, fun _ => rfl⟩

end Sys2Proof.Machine

/-! Memory (20_memory.md R60 to R74): the fetch is big-endian at any address, a store is seen by the next fetch, and which
instructions write memory. -/

namespace Sys2Proof.Machine

/-- After the registers up to `x` are stored at I, memory holds each of them at its own offset (R204). -/
theorem State.read_writeBytes_regBytes {s : State} {x r : Reg} (hm : s.mem.wf = true)
    (hx : s.i.toNat + x.toNat ≤ 0xFFF) (hr : r.toNat ≤ x.toNat) :
    (s.mem.writeBytes s.i.toNat (s.regBytes x)).read (s.i.toNat + r.toNat) = s.getV r := by
  have hfits : s.i.toNat + (s.regBytes x).length ≤ 4096 := by rw [State.regBytes_length]; omega
  rw [read_writeBytes _ hm (.inr hfits), if_pos (Nat.le_add_right _ _), Nat.add_sub_cancel_left,
    State.regBytes_getD s x r hr]

/-- Settles O39: the store completes and leaves `pc`, so the fetch reads `V[r]` there and `V[r']` in the next byte. -/
theorem fetchSeesStoredBytes : Obligations.FetchSeesStoredBytes := by
  unfold Obligations.FetchSeesStoredBytes
  intro x r r' s hm hx hrr' hr'x hpc
  have hin : s.pc.toNat ≤ 0xFFE := by omega
  have hhigh : (s.mem.writeBytes s.i.toNat (s.regBytes x)).read s.pc.toNat = s.getV r := by
    rw [hpc, State.read_writeBytes_regBytes hm hx (by omega)]
  have hlow : (s.mem.writeBytes s.i.toNat (s.regBytes x)).read (s.pc.toNat + 1) = s.getV r' := by
    rw [hpc, Nat.add_assoc, hrr', State.read_writeBytes_regBytes hm hx hr'x]
  refine ⟨_, exec_ldMemVx_inRange x hx, ?_⟩
  calc State.fetch { s with mem := s.mem.writeBytes s.i.toNat (s.regBytes x) }
    _ = some (wordOfBytes _ _) := State.fetch_inRange hin
    _ = some (wordOfBytes (s.getV r) (s.getV r')) := congrArg some (congrArg₂ wordOfBytes hhigh hlow)

/-- Settles O55: the frame of every instruction but the two stores keeps memory. -/
theorem onlyTheStoresWriteMemory : Obligations.OnlyTheStoresWriteMemory := by
  unfold Obligations.OnlyTheStoresWriteMemory
  intro i s t h hne
  have hmem : t.mem = (s.withWritesOf i t).mem := (exec_frame h).mem
  cases i
  case ldBVx x => exact .inl ⟨x, rfl⟩
  case ldMemVx x => exact .inr ⟨x, rfl⟩
  all_goals exact absurd hmem hne

/-- Settles O8: the fetch in range reads the two bytes, and the word they make has the first as its high byte. -/
theorem fetchIsBigEndianAtAnyAddress : Obligations.FetchIsBigEndianAtAnyAddress := by
  unfold Obligations.FetchIsBigEndianAtAnyAddress
  intro s hpc
  exact ⟨_, State.fetch_inRange hpc, wordOfBytes_toNat _ _⟩

end Sys2Proof.Machine

/-! Encoding (30_encoding.md R90 to R101): the decoder's selection rule and the encoder are inverse to each other, the
selection rule and the opcode map accept the same words, and what an undefined word does to the step that fetched it. -/

namespace Sys2Proof

/-! ### The decoder's answer is the handler's (R94, R97) -/

theorem decodeWord_eq_instr_iff {op : Word} {i : Instr} : decodeWord op = .instr i ↔ handlerOf op = some i := by
  unfold decodeWord
  cases handlerOf op <;> simp

theorem decodeWord_eq_undefined_iff {op : Word} :
    decodeWord op = .error (.undefinedInstruction op) ↔ handlerOf op = none := by
  unfold decodeWord
  cases handlerOf op <;> simp

/-- Decoding the two bytes of a word, in memory order, is decoding the word (R63, R90). -/
@[simp] theorem decode_bytes (op : Word) : decode [highByte op, lowByte op] = decodeWord op := by
  rw [decode, wordOfBytes_bytes]

/-! ### The encoder and the selection rule are inverse (R92, R94, R95) -/

/-- The encoding of an instruction selects the handler that reads that instruction: the format puts each operand in the
field the handler takes it from, and the family and the selector in the fields the rule looks at. -/
theorem handlerOf_encode (i : Instr) : handlerOf (encode i) = some i := by
  cases i
  case cls | ret => simp [encode, handlerOf, handler0]
  case seReg => simp [encode, handlerOf, handler5]
  case ldReg | orReg | andReg | xorReg | addReg | subReg | shr | subn | shl => simp [encode, handlerOf, handler8]
  case sneReg => simp [encode, handlerOf, handler9]
  case skp | sknp => simp [encode, handlerOf, handlerE]
  case ldVxDt | ldVxK | ldDtVx | ldStVx | addIVx | ldFVx | ldBVx | ldMemVx | ldVxMem =>
    simp [encode, handlerOf, handlerF]
  all_goals simp [encode, handlerOf]

/-- A word of a family is that family with its remaining twelve bits. -/
theorem wordNNN_of_family {op : Word} {f : Nibble} (hf : famOf op = f) : wordNNN f (nnnOf op) = op := by
  rw [← hf, wordNNN_fields]

/-- A word of a family with a low byte is those two with its field `x` between them. -/
theorem wordXNN_of_fields {op : Word} {f : Nibble} {nn : Byte} (hf : famOf op = f) (hnn : nnOf op = nn) :
    wordXNN f (xOf op) nn = op := by
  rw [← hf, ← hnn, wordXNN_fields]

/-- A word of a family with a low nibble is those two with its fields `x` and `y` between them. -/
theorem wordXYN_of_fields {op : Word} {f n : Nibble} (hf : famOf op = f) (hn : nOf op = n) :
    wordXYN f (xOf op) (yOf op) n = op := by
  rw [← hf, ← hn, wordXYN_fields]

/-- Families 0, E and F select by the low byte (R94), and their instructions keep the field `x`. -/
theorem encode_of_byte_handler {op : Word} {i : Instr}
    (h : famOf op = 0x0 ∧ handler0 op = some i ∨ famOf op = 0xE ∧ handlerE op = some i ∨
      famOf op = 0xF ∧ handlerF op = some i) : encode i = op := by
  rcases h with ⟨hf, h⟩ | ⟨hf, h⟩ | ⟨hf, h⟩
  all_goals
    simp only [handler0, handlerE, handlerF] at h
    split_ifs at h
    all_goals
      cases h
      exact wordXNN_of_fields hf ‹_›

/-- Families 5, 8 and 9 select by the low nibble (R94), and their instructions keep the fields `x` and `y`. -/
theorem encode_of_nibble_handler {op : Word} {i : Instr}
    (h : famOf op = 0x5 ∧ handler5 op = some i ∨ famOf op = 0x8 ∧ handler8 op = some i ∨
      famOf op = 0x9 ∧ handler9 op = some i) : encode i = op := by
  rcases h with ⟨hf, h⟩ | ⟨hf, h⟩ | ⟨hf, h⟩
  all_goals
    simp only [handler5, handler8, handler9] at h
    split_ifs at h
    all_goals
      cases h
      exact wordXYN_of_fields hf ‹_›

/-- The sixteen families (R91). -/
theorem nibble_cases : ∀ f : Nibble, f = 0x0 ∨ f = 0x1 ∨ f = 0x2 ∨ f = 0x3 ∨ f = 0x4 ∨ f = 0x5 ∨ f = 0x6 ∨ f = 0x7 ∨
    f = 0x8 ∨ f = 0x9 ∨ f = 0xA ∨ f = 0xB ∨ f = 0xC ∨ f = 0xD ∨ f = 0xE ∨ f = 0xF := by
  decide

/-- The handler a word selects reads an instruction whose encoding is that word: what selects a handler is the part of
the word its instruction does not keep, and its operands are the rest. -/
theorem encode_of_handlerOf {op : Word} {i : Instr} (h : handlerOf op = some i) : encode i = op := by
  rcases nibble_cases (famOf op) with
    hf | hf | hf | hf | hf | hf | hf | hf | hf | hf | hf | hf | hf | hf | hf | hf <;>
    simp only [handlerOf, hf, BitVec.ofNat_eq_ofNat, BitVec.reduceEq, reduceIte, Option.some.injEq] at h
  · exact encode_of_byte_handler (.inl ⟨hf, h⟩)
  · rw [← h]; exact wordNNN_of_family hf
  · rw [← h]; exact wordNNN_of_family hf
  · rw [← h]; exact wordXNN_of_fields hf rfl
  · rw [← h]; exact wordXNN_of_fields hf rfl
  · exact encode_of_nibble_handler (.inl ⟨hf, h⟩)
  · rw [← h]; exact wordXNN_of_fields hf rfl
  · rw [← h]; exact wordXNN_of_fields hf rfl
  · exact encode_of_nibble_handler (.inr (.inl ⟨hf, h⟩))
  · exact encode_of_nibble_handler (.inr (.inr ⟨hf, h⟩))
  · rw [← h]; exact wordNNN_of_family hf
  · rw [← h]; exact wordNNN_of_family hf
  · rw [← h]; exact wordXNN_of_fields hf rfl
  · rw [← h]; exact wordXYN_of_fields hf rfl
  · exact encode_of_byte_handler (.inr (.inl ⟨hf, h⟩))
  · exact encode_of_byte_handler (.inr (.inr ⟨hf, h⟩))

/-- Settles O1: the handler the encoding selects reads the instruction back, and a word is its two bytes. -/
theorem decodeOfEncodeGivesTheInstruction : Obligations.DecodeOfEncodeGivesTheInstruction := by
  unfold Obligations.DecodeOfEncodeGivesTheInstruction
  intro i
  have h : decodeWord (encode i) = .instr i := decodeWord_eq_instr_iff.2 (handlerOf_encode i)
  exact ⟨h, (decode_bytes _).trans h⟩

/-- Settles O2: an instruction can only have been read by the handler its word selects. -/
theorem encodeOfDecodeGivesTheWord : Obligations.EncodeOfDecodeGivesTheWord := by
  unfold Obligations.EncodeOfDecodeGivesTheWord
  intro op i h
  exact encode_of_handlerOf (decodeWord_eq_instr_iff.1 h)

/-- Settles O6: six of the words are encodings; the seventh is of family 0 and has neither of its two low bytes. -/
theorem wordsWrittenFromTheTableDecode : Obligations.WordsWrittenFromTheTableDecode := by
  unfold Obligations.WordsWrittenFromTheTableDecode
  decide

/-! ### The opcode map (R95) -/

/-- The word of every instruction is selected by the instruction's row. -/
theorem rowOf_statement (i : Instr) : Laws.RowOf.Statement i := by
  cases i
  exacts [Laws.RowOf.cls _, Laws.RowOf.ret _, Laws.RowOf.jp _, Laws.RowOf.call _, Laws.RowOf.seImm _ _,
    Laws.RowOf.sneImm _ _, Laws.RowOf.seReg _ _, Laws.RowOf.ldImm _ _, Laws.RowOf.addImm _ _, Laws.RowOf.ldReg _ _,
    Laws.RowOf.orReg _ _, Laws.RowOf.andReg _ _, Laws.RowOf.xorReg _ _, Laws.RowOf.addReg _ _, Laws.RowOf.subReg _ _,
    Laws.RowOf.shr _ _, Laws.RowOf.subn _ _, Laws.RowOf.shl _ _, Laws.RowOf.sneReg _ _, Laws.RowOf.ldI _,
    Laws.RowOf.jpV0 _, Laws.RowOf.rnd _ _, Laws.RowOf.drw _ _ _, Laws.RowOf.skp _, Laws.RowOf.sknp _,
    Laws.RowOf.ldVxDt _, Laws.RowOf.ldVxK _, Laws.RowOf.ldDtVx _, Laws.RowOf.ldStVx _, Laws.RowOf.addIVx _,
    Laws.RowOf.ldFVx _, Laws.RowOf.ldBVx _, Laws.RowOf.ldMemVx _, Laws.RowOf.ldVxMem _]

/-- The word of every instruction is in the opcode map. -/
theorem legalWord_encode (i : Instr) : legalWord (encode i) = true := by
  obtain ⟨r, hr, hsel⟩ := (Option.any_eq_true _ _).1 (rowOf_statement i)
  exact List.any_eq_true.2 ⟨r, List.mem_of_getElem? hr, hsel⟩

theorem selects_iff {r : OpcodeRow} {op : Word} : r.selects op = true ↔ op &&& r.mask = r.bits := by
  simp [OpcodeRow.selects]

/-- A row of the opcode map looks at each field of a word by its own part of the mask. -/
theorem fields_of_selects {r : OpcodeRow} {op : Word} (h : r.selects op = true) :
    famOf op &&& famOf r.mask = famOf r.bits ∧ nnOf op &&& nnOf r.mask = nnOf r.bits ∧
      nOf op &&& nOf r.mask = nOf r.bits := by
  rw [← selects_iff.1 h]
  simp [famOf, nnOf, nOf, BitVec.extractLsb'_and]

/-- The masks of the opcode map look at all of the family, and at all of the low byte or the low nibble if at any. -/
theorem mask_fields : famOf 0xF000 = 0xF ∧ famOf 0xF0FF = 0xF ∧ famOf 0xF00F = 0xF ∧ nnOf 0xF0FF = 0xFF ∧
    nOf 0xF00F = 0xF := by
  decide

/-- A word some row selects has a handler: the row names a family and a selector that the rule of R94 knows. -/
theorem handlerOf_of_selects {r : OpcodeRow} {op : Word} (hr : r ∈ opcodeMap) (h : r.selects op = true) :
    ∃ i, handlerOf op = some i := by
  obtain ⟨hf, hnn, hn⟩ := fields_of_selects h
  fin_cases hr
  all_goals
    simp only [mask_fields, nibble_and_ones, byte_and_ones] at hf hnn hn
    simp only [handlerOf, handler0, handler5, handler8, handler9, handlerE, handlerF, hf, hnn, hn]
    exact ⟨_, rfl⟩

/-- Two rows of the map that agree where both their masks look are one row. -/
theorem opcodeMap_rows_eq_of_agree :
    ∀ r ∈ opcodeMap, ∀ r' ∈ opcodeMap, r.bits &&& r'.mask = r'.bits &&& r.mask → r = r' := by
  decide

/-- Settles O5: two rows that select one word agree where both their masks look, so they are one row. -/
theorem opcodeRowsDoNotOverlap : Obligations.OpcodeRowsDoNotOverlap := by
  unfold Obligations.OpcodeRowsDoNotOverlap
  intro op r hr r' hr' h h'
  refine opcodeMap_rows_eq_of_agree r hr r' hr' ?_
  rw [← selects_iff.1 h, ← selects_iff.1 h', BitVec.and_assoc, BitVec.and_assoc, BitVec.and_comm r.mask]

/-! ### The undefined words (R97) -/

theorem famOf_eq_iff {op : Word} {f : Nibble} : famOf op = f ↔ op.toNat / 4096 = f.toNat := by
  rw [← BitVec.toNat_inj, famOf_toNat]; omega

theorem nnOf_eq_iff {op : Word} {b : Byte} : nnOf op = b ↔ op.toNat % 256 = b.toNat := by
  rw [← BitVec.toNat_inj, nnOf_toNat]

theorem nOf_eq_iff {op : Word} {n : Nibble} : nOf op = n ↔ op.toNat % 16 = n.toNat := by
  rw [← BitVec.toNat_inj, nOf_toNat]

/-- A word has no handler exactly when it is in one of the six families that select further, and that family has none. -/
theorem handlerOf_eq_none_iff {op : Word} : handlerOf op = none ↔
    famOf op = 0x0 ∧ handler0 op = none ∨ famOf op = 0x5 ∧ handler5 op = none ∨ famOf op = 0x8 ∧ handler8 op = none ∨
    famOf op = 0x9 ∧ handler9 op = none ∨ famOf op = 0xE ∧ handlerE op = none ∨ famOf op = 0xF ∧ handlerF op = none := by
  rcases nibble_cases (famOf op) with
    hf | hf | hf | hf | hf | hf | hf | hf | hf | hf | hf | hf | hf | hf | hf | hf <;>
    simp [handlerOf, hf]

/-- A selection finds nothing when its test fails and the rest finds nothing. -/
theorem ite_some_eq_none_iff {α : Type} {p : Prop} [Decidable p] {a : α} {o : Option α} :
    (if p then some a else o) = none ↔ ¬ p ∧ o = none := by
  split <;> simp [*]

theorem handler0_eq_none_iff {op : Word} : handler0 op = none ↔ op.toNat % 256 ≠ 0xE0 ∧ op.toNat % 256 ≠ 0xEE := by
  simp [handler0, ite_some_eq_none_iff, nnOf_eq_iff]

theorem handler5_eq_none_iff {op : Word} : handler5 op = none ↔ op.toNat % 16 ≠ 0x0 := by
  simp [handler5, nOf_eq_iff]

theorem handler8_eq_none_iff {op : Word} :
    handler8 op = none ↔ op.toNat % 16 ∈ [0x8, 0x9, 0xA, 0xB, 0xC, 0xD, 0xF] := by
  have hselects : handler8 op = none ↔ op.toNat % 16 ∉ [0x0, 0x1, 0x2, 0x3, 0x4, 0x5, 0x6, 0x7, 0xE] := by
    simp [handler8, ite_some_eq_none_iff, nOf_eq_iff]
  rw [hselects]
  simp only [List.mem_cons, List.not_mem_nil, or_false]
  omega

theorem handler9_eq_none_iff {op : Word} : handler9 op = none ↔ op.toNat % 16 ≠ 0x0 := by
  simp [handler9, nOf_eq_iff]

theorem handlerE_eq_none_iff {op : Word} : handlerE op = none ↔ op.toNat % 256 ∉ [0x9E, 0xA1] := by
  simp [handlerE, ite_some_eq_none_iff, nnOf_eq_iff]

theorem handlerF_eq_none_iff {op : Word} :
    handlerF op = none ↔ op.toNat % 256 ∉ [0x07, 0x0A, 0x15, 0x18, 0x1E, 0x29, 0x33, 0x55, 0x65] := by
  simp [handlerF, ite_some_eq_none_iff, nnOf_eq_iff]

/-- Settles O4: the families with a further selection are the six of the list, and what each leaves out is the list's. -/
theorem undefinedWordsAreTheListOfIllegalEncodings : Obligations.UndefinedWordsAreTheListOfIllegalEncodings := by
  unfold Obligations.UndefinedWordsAreTheListOfIllegalEncodings
  intro op
  rw [decodeWord_eq_undefined_iff, handlerOf_eq_none_iff, handler0_eq_none_iff, handler5_eq_none_iff,
    handler8_eq_none_iff, handler9_eq_none_iff, handlerE_eq_none_iff, handlerF_eq_none_iff]
  simp only [famOf_eq_iff]
  exact Iff.rfl

/-- Settles O3: a row selects a decoded word because it selects the encoding of what was read. -/
theorem decoderAcceptsExactlyTheOpcodeMap : Obligations.DecoderAcceptsExactlyTheOpcodeMap := by
  unfold Obligations.DecoderAcceptsExactlyTheOpcodeMap
  simp only [decodeWord_eq_instr_iff]
  intro op
  constructor
  · rintro ⟨i, h⟩
    rw [← encode_of_handlerOf h]
    exact legalWord_encode i
  · intro h
    obtain ⟨r, hr, hsel⟩ := List.any_eq_true.1 h
    exact handlerOf_of_selects hr hsel

end Sys2Proof

namespace Sys2Proof.Machine

/-! ### An undefined word in the step that fetches it (R97, R264) -/

/-- A fetch in range reads the word at the program counter. -/
theorem State.fetch_wordAtPc {s : State} (h : s.pc.toNat ≤ 0xFFE) : s.fetch = some (BitVec.ofNat 16 s.wordAtPc) := by
  rw [State.fetch_inRange h, wordOfBytes_atPc]

/-- The step that fetches an undefined word faults after the advance. -/
theorem step_undefined {s : State} {op : Word} (hrun : s.run = .running) (hfetch : s.fetch = some op)
    (hop : decodeWord op = .error (.undefinedInstruction op)) :
    step s = .next (s.advance.raise .undefinedInstruction op) := by
  simp only [step, hrun, hfetch, hop]

/-- A word outside the opcode map is decoded as an undefined instruction. -/
theorem decodeWord_of_not_legal {op : Word} (h : legalWord op = false) :
    decodeWord op = .error (.undefinedInstruction op) := by
  refine decodeWord_eq_undefined_iff.2 (Option.eq_none_iff_forall_ne_some.2 fun i hi => ?_)
  have hlegal := (decoderAcceptsExactlyTheOpcodeMap op).1 ⟨i, decodeWord_eq_instr_iff.2 hi⟩
  simp [h] at hlegal

/-- Settles O11: the fault is raised in the advanced state, where `pc` is the word's address plus 2. -/
theorem undefinedWordFaults : Obligations.UndefinedWordFaults := by
  unfold Obligations.UndefinedWordFaults
  intro s hrun hpc hillegal
  have hstep := step_undefined hrun (State.fetch_wordAtPc hpc) (decodeWord_of_not_legal hillegal)
  have haddr : s.advance.pc - 2 = s.pc := BitVec.add_sub_cancel s.pc 2
  obtain ⟨hfaulted, hcause, hfaultPc, hopcode, hpcs⟩ :=
    s.advance.faultedBy_raise .undefinedInstruction (BitVec.ofNat 16 s.wordAtPc)
  rw [haddr] at hfaultPc hpcs
  exact ⟨_, hstep, hfaulted, hcause, hfaultPc, hopcode, hpcs, rfl⟩

/-! ### The ignored bits (R101) -/

/-- `RET` on a stack with an entry pops it, whatever its ignored nibble. -/
theorem exec_ret_entry {s t : State} (u : Nibble) (h : s.pop = some t) : exec (.ret u) s = .next t := by
  simp only [exec, execRet, h]

/-- Settles O7: only a `RET` that faults looks at the nibble, and the meanings of the shifts do not take `y`. -/
theorem ignoredBitsChangeNothing : Obligations.IgnoredBitsChangeNothing := by
  unfold Obligations.IgnoredBitsChangeNothing
  intro s
  refine ⟨fun _ _ => rfl, fun hsp u u' => ?_, fun _ _ _ => rfl, fun _ _ _ => rfl⟩
  obtain ⟨t, hpop, -⟩ := State.pop_entry hsp
  exact (exec_ret_entry u hpop).trans (exec_ret_entry u' hpop).symm

end Sys2Proof.Machine

/-! The step operation (40_step_cycle.md R120 to R126): what `step` answers in each run state, the faults it can meet in
the order of R126, and the operations that a key wait and FAULTED outlast. -/

namespace Sys2Proof.Machine

/-! ### One equation per way a step can go -/

/-- Outside RUNNING `step` is ignored (R120, R121). -/
theorem step_of_not_running {s : State} (h : s.run ≠ .running) : step s = .next s := by
  cases hrun : s.run with
  | running => exact absurd hrun h
  | waitingForKey x => simp only [step, hrun]
  | faulted => simp only [step, hrun]

/-- A fetch that reaches above 0xFFF (R123). -/
theorem step_fetchFault {s : State} (hrun : s.run = .running) (hpc : 0xFFF ≤ s.pc.toNat) :
    step s = .next s.fetchFault := by
  simp only [step, hrun, State.fetch_outOfRange hpc]

/-- A word that decodes to an instruction is executed after the advance (R122, R124). -/
theorem step_instr {s : State} {op : Word} {i : Instr} (hrun : s.run = .running) (hfetch : s.fetch = some op)
    (hop : decodeWord op = .instr i) : step s = exec i s.advance := by
  simp only [step, hrun, hfetch, hop]

/-- Settles O12: neither a key wait nor FAULTED is RUNNING. -/
theorem stepIsIgnoredWhileWaitingOrFaulted : Obligations.StepIsIgnoredWhileWaitingOrFaulted := by
  unfold Obligations.StepIsIgnoredWhileWaitingOrFaulted
  exact fun s => ⟨fun ⟨x, hrun⟩ => step_of_not_running (by simp [hrun]),
    fun hrun => step_of_not_running (by simp [hrun])⟩

/-- Settles O10: the advance is the write of `pc + 2` to `pc`. -/
theorem stepRunsTheDecodedInstruction : Obligations.StepRunsTheDecodedInstruction := by
  unfold Obligations.StepRunsTheDecodedInstruction
  exact fun s op i hrun hfetch hop => step_instr hrun hfetch hop

/-- Settles O9: the fetch fault latches its record and writes nothing else; in range the fetch is that of O8. -/
theorem fetchOutOfBoundsFaults : Obligations.FetchOutOfBoundsFaults := by
  unfold Obligations.FetchOutOfBoundsFaults
  exact fun s hrun => ⟨fun hpc => step_fetchFault hrun hpc, fetchIsBigEndianAtAnyAddress s⟩

/-! ### The faults of a step (R126) -/

/-- The first condition: the fetch. -/
theorem stepFault_fetch {s : State} (hpc : 0xFFF ≤ s.pc.toNat) : stepFault s = .memOutOfBounds := if_pos hpc

/-- The second condition: the word is undefined. -/
theorem stepFault_undefined {s : State} {e : DecodeError} (hpc : s.pc.toNat ≤ 0xFFE)
    (hop : decodeWord (BitVec.ofNat 16 s.wordAtPc) = .error e) : stepFault s = .undefinedInstruction := by
  rw [stepFault, if_neg (by omega), hop]

/-- The remaining conditions: those of the instruction itself. -/
theorem stepFault_instr {s : State} {i : Instr} (hpc : s.pc.toNat ≤ 0xFFE)
    (hop : decodeWord (BitVec.ofNat 16 s.wordAtPc) = .instr i) : stepFault s = ownFault i s := by
  rw [stepFault, if_neg (by omega), hop]

/-- A decoding error names the word that was decoded. -/
theorem decodeWord_error {op : Word} {e : DecodeError} (h : decodeWord op = .error e) :
    e = .undefinedInstruction op := by
  unfold decodeWord at h
  cases hop : handlerOf op with
  | none => rw [hop] at h; exact (Decoded.error.inj h).symm
  | some i => rw [hop] at h; cases h

/-- A fault raised where `pc` is the advanced one records the address of the instruction (R268). -/
theorem State.raise_faultPc_of_advanced {s g : State} (hpc : g.pc = s.pc + 2) (c : FaultCause) (op : Word) :
    (g.raise c op).faultPc = s.pc := by
  rw [State.raise_faultPc, hpc]
  exact BitVec.add_sub_cancel s.pc 2

/-- An instruction that completes does not leave a running core faulted. -/
theorem Completes.run_ne_faulted {s t : State} (hc : Completes s t) (hrun : s.run = .running) : t.run ≠ .faulted := by
  rcases hc.run with h | ⟨x, h⟩
  · rw [h, hrun]; decide
  · rw [h]; simp

/-- A step that meets no condition of R126 executes an instruction that completes. -/
theorem step_completing {s : State} (hrun : s.run = .running) (h : stepFault s = .none) :
    ∃ t, step s = .next t ∧ Completes s.advance t := by
  by_cases hpc : 0xFFF ≤ s.pc.toNat
  · rw [stepFault_fetch hpc] at h; cases h
  have hin : s.pc.toNat ≤ 0xFFE := by omega
  cases hop : decodeWord (BitVec.ofNat 16 s.wordAtPc) with
  | error e => rw [stepFault_undefined hin hop] at h; cases h
  | instr i =>
    rw [step_instr hrun (State.fetch_wordAtPc hin) hop]
    exact exec_completing (by rw [ownFault_advance, ← stepFault_instr hin hop, h])

/-- A step that fetches its word and meets one of the other conditions of R126 raises that fault after the advance, with
the word in the record. -/
theorem step_faulting {s : State} (hrun : s.run = .running) (hpc : s.pc.toNat ≤ 0xFFE) (h : stepFault s ≠ .none) :
    ∃ g : State, step s = .next (g.raise (stepFault s) (BitVec.ofNat 16 s.wordAtPc)) ∧ g.pc = s.pc + 2 := by
  have hfetch := State.fetch_wordAtPc hpc
  cases hop : decodeWord (BitVec.ofNat 16 s.wordAtPc) with
  | error e =>
    rw [stepFault_undefined hpc hop]
    exact ⟨s.advance, step_undefined hrun hfetch (decodeWord_error hop ▸ hop), s.advance_pc⟩
  | instr i =>
    rw [stepFault_instr hpc hop, ← ownFault_advance] at h ⊢
    obtain ⟨g, he, hg, -⟩ := exec_faulting h
    rw [encodeOfDecodeGivesTheWord _ i hop] at he
    exact ⟨g, (step_instr hrun hfetch hop).trans he, hg⟩

/-- Settles O13: with no condition met the step completes; the fetch fault latches `pc` and no word; any other fault is
raised after the advance, with the word. -/
theorem stepFaultsExactlyInTheListedCases : Obligations.StepFaultsExactlyInTheListedCases := by
  unfold Obligations.StepFaultsExactlyInTheListedCases
  intro s hrun
  by_cases h : stepFault s = .none
  · obtain ⟨t, hstep, hc⟩ := step_completing hrun h
    exact ⟨t, hstep, fun _ => hc.run_ne_faulted hrun, absurd h⟩
  by_cases hpc : 0xFFF ≤ s.pc.toNat
  · rw [if_pos hpc]
    exact ⟨_, step_fetchFault hrun hpc, (absurd · h), fun _ => ⟨rfl, (stepFault_fetch hpc).symm, rfl, rfl⟩⟩
  · rw [if_neg hpc]
    obtain ⟨g, hstep, hg⟩ := step_faulting hrun (by omega) h
    exact ⟨_, hstep, (absurd · h), fun _ => ⟨rfl, rfl, State.raise_faultPc_of_advanced hg _ _, rfl⟩⟩

/-! ### What a sequence of operations keeps -/

/-- What each operation of a class keeps, answering with a next state, every sequence of such operations keeps. -/
theorem runOps_keeps {P : State → Prop} {Q : HostOp → Prop}
    (hop : ∀ op s, Q op → P s → ∃ t, applyOp op s = .next t ∧ P t) (ops : List HostOp) :
    ∀ s, (∀ op ∈ ops, Q op) → P s → ∃ t, runOps ops s = .next t ∧ P t := by
  induction ops with
  | nil => exact fun s _ hs => ⟨s, rfl, hs⟩
  | cons op ops ih =>
    intro s hops hs
    rw [List.forall_mem_cons] at hops
    obtain ⟨t, he, ht⟩ := hop op s hops.1 hs
    rw [runOps_cons he]
    exact ih t hops.2 ht

/-- FRAME: from `s` to `t` nothing differs but the timers and the key states. -/
def State.OnlyTimersAndKeys (s t : State) : Prop := t = { s with dt := t.dt, st := t.st, keys := t.keys }

theorem State.OnlyTimersAndKeys.trans {s t u : State} (hst : s.OnlyTimersAndKeys t) (htu : t.OnlyTimersAndKeys u) :
    s.OnlyTimersAndKeys u := by
  unfold State.OnlyTimersAndKeys at *
  rw [hst] at htu
  exact htu

theorem State.OnlyTimersAndKeys.run {s t : State} (h : s.OnlyTimersAndKeys t) : t.run = s.run := by
  unfold State.OnlyTimersAndKeys at h
  rw [h]

/-- In a key wait a step is ignored, a tick writes the timers and a key-up event a key state (R120, R236, R238). -/
theorem applyOp_in_key_wait {op : HostOp} {s : State} {x : Reg} (hrun : s.run = .waitingForKey x)
    (hop : op = .step ∨ op = .tickTimers ∨ ∃ k, op = .clearKey k) :
    ∃ t, applyOp op s = .next t ∧ s.OnlyTimersAndKeys t := by
  have hlive : s.run ≠ .faulted := by simp [hrun]
  rcases hop with rfl | rfl | ⟨k, rfl⟩
  · exact ⟨s, step_of_not_running (by simp [hrun]), rfl⟩
  · exact ⟨_, congrArg Host.Outcome.next (State.tickTimers_live hlive), rfl⟩
  · exact ⟨_, congrArg Host.Outcome.next (State.clearKey_live hlive k), rfl⟩

/-- Settles O43: each operation stays in the frame of the state the wait began in, and that frame keeps the wait. -/
theorem keyWaitHoldsUntilAKeyDownEvent : Obligations.KeyWaitHoldsUntilAKeyDownEvent := by
  unfold Obligations.KeyWaitHoldsUntilAKeyDownEvent
  intro ops s x hrun hops
  refine runOps_keeps (P := s.OnlyTimersAndKeys) (fun op t hop ht => ?_) ops s hops rfl
  obtain ⟨u, he, hu⟩ := applyOp_in_key_wait (ht.run.trans hrun) hop
  exact ⟨u, he, ht.trans hu⟩

/-- In FAULTED every operation but `reset` is ignored (R121, 60_exceptions.md R270). -/
theorem applyOp_faulted {op : HostOp} {s : State} (hrun : s.run = .faulted) (hop : op ≠ .reset) :
    applyOp op s = .next s := by
  cases op with
  | reset => exact absurd rfl hop
  | loadProgram bytes => exact congrArg Host.Outcome.next (State.unlessFaulted_faulted hrun _)
  | step => exact step_of_not_running (by simp [hrun])
  | tickTimers => exact congrArg Host.Outcome.next (State.unlessFaulted_faulted hrun _)
  | setKey k => exact congrArg Host.Outcome.next (State.unlessFaulted_faulted hrun _)
  | clearKey k => exact congrArg Host.Outcome.next (State.unlessFaulted_faulted hrun _)

/-- Settles O49: every operation of the sequence hands on the state it was given. -/
theorem faultedIgnoresEverythingButReset : Obligations.FaultedIgnoresEverythingButReset := by
  unfold Obligations.FaultedIgnoresEverythingButReset
  intro ops s hrun hops
  have hkeeps : ∀ op t, op ≠ .reset → t = s → ∃ u, applyOp op t = .next u ∧ u = s := by
    rintro op _ hop rfl
    exact ⟨_, applyOp_faulted hrun hop, rfl⟩
  obtain ⟨t, he, rfl⟩ := runOps_keeps hkeeps ops s hops rfl
  exact he

end Sys2Proof.Machine

/-! Control flow (41_control_flow.md R140 to R148): the targets of the jumps, the skips, calls and returns, and the jump to
itself that ends a run. -/

namespace Sys2Proof.Machine

/-! ### The display -/

/-- Settles O14: the write of a blank display is all that `CLS` does. -/
theorem clsBlanksTheDisplay : Obligations.ClsBlanksTheDisplay := by
  unfold Obligations.ClsBlanksTheDisplay
  exact fun u s => ⟨wordXNN_mask _ _ _, _, rfl, rfl, pixel_blank, fun _ => rfl⟩

/-! ### Jumps -/

/-- An address immediate is widened to a program counter of the same value (R142, R143). -/
theorem zext16_addr_toNat (nnn : Addr12) : (zext16 nnn).toNat = nnn.toNat :=
  BitVec.toNat_setWidth_of_le (by decide)

/-- The sum of a byte and an address immediate fits a program counter, so it is exact (R144). -/
theorem offsetTarget_toNat (v0 : Byte) (nnn : Addr12) : (offsetTarget v0 nnn).toNat = v0.toNat + nnn.toNat := by
  have hv0 := v0.isLt
  have hnnn := nnn.isLt
  exact Nat.mod_eq_of_lt (by omega)

/-- Settles O16: the jump writes its target to `pc`. -/
theorem jpSetsThePc : Obligations.JpSetsThePc := by
  unfold Obligations.JpSetsThePc
  exact fun nnn s => ⟨wordNNN_mask _ _, _, rfl, rfl, zext16_addr_toNat nnn, fun _ => rfl⟩

/-- Settles O18: the jump writes its target to `pc`, and the target does not wrap. -/
theorem jpV0SetsThePcToTheSum : Obligations.JpV0SetsThePcToTheSum := by
  unfold Obligations.JpV0SetsThePcToTheSum
  exact fun nnn s => ⟨wordNNN_mask _ _, _, rfl, rfl, offsetTarget_toNat _ nnn, fun _ => rfl⟩

/-! ### Skips -/

/-- A skip whose test decides `p` adds 2 to `pc` exactly when `p` holds. -/
theorem State.skipIf_eq_of_iff (s : State) {c : Bool} {p : Prop} [Decidable p] (h : c = true ↔ p) :
    s.skipIf c = { s with pc := if p then s.pc + 2 else s.pc } := by
  by_cases hp : p
  · rw [if_pos hp, h.2 hp]; rfl
  · rw [if_neg hp, Bool.eq_false_iff.2 (hp ∘ h.1)]; rfl

theorem byte_beq_iff (a b : Byte) : (a == b) = true ↔ a.toNat = b.toNat :=
  beq_iff_eq.trans BitVec.toNat_inj.symm

theorem byte_bne_iff (a b : Byte) : (a != b) = true ↔ a.toNat ≠ b.toNat :=
  bne_iff_ne.trans BitVec.toNat_inj.symm.not

/-- Settles O19: each skip's test decides its comparison of values. -/
theorem skipsCompareAndAdvance : Obligations.SkipsCompareAndAdvance := by
  unfold Obligations.SkipsCompareAndAdvance
  intro x y nn s
  refine ⟨⟨wordXNN_mask_family _ _ _, wordXNN_mask_family _ _ _, wordXYN_mask _ _ _ _, wordXYN_mask _ _ _ _⟩,
    ?_, ?_, ?_, ?_⟩
  · exact congrArg Host.Outcome.next (s.skipIf_eq_of_iff (byte_beq_iff _ _))
  · exact congrArg Host.Outcome.next (s.skipIf_eq_of_iff (byte_bne_iff _ _))
  · exact congrArg Host.Outcome.next (s.skipIf_eq_of_iff (byte_beq_iff _ _))
  · exact congrArg Host.Outcome.next (s.skipIf_eq_of_iff (byte_bne_iff _ _))

/-! ### Calls and returns -/

/-- Settles O15: with an entry `RET` is the pop of it, on an empty stack the fault raised in the state it was given. -/
theorem retPopsOrUnderflows : Obligations.RetPopsOrUnderflows := by
  unfold Obligations.RetPopsOrUnderflows
  intro u s
  refine ⟨wordXNN_mask _ _ _, fun h => ?_,
    fun h => ⟨_, exec_ret_empty u h, s.faultedBy_raise _ _, s.onlyFault_raise _ _⟩⟩
  obtain ⟨t, hpop, hframe, hsp, hk, hpc⟩ := State.pop_entry (Nat.pos_of_ne_zero h)
  have hmem : t.mem = s.mem := by rw [hframe]
  exact ⟨t, exec_ret_entry u hpop, hframe, by omega, hpc ▸ Vector.getElem?_eq_getElem hk, fun a => by rw [hmem]⟩

/-- Settles O17: with room `CALL` is the push and the jump, on a full stack the fault raised in the state it was given. -/
theorem callPushesOrOverflows : Obligations.CallPushesOrOverflows := by
  unfold Obligations.CallPushesOrOverflows
  intro nnn s
  refine ⟨wordNNN_mask _ _, fun h => ?_,
    fun h => ⟨_, exec_call_full nnn h, s.faultedBy_raise _ _, s.onlyFault_raise _ _⟩⟩
  have hroom : s.sp.val < 16 := by omega
  exact ⟨_, exec_call_room nnn hroom, rfl, rfl, Vector.getElem?_set_self hroom,
    fun j hj => Vector.getElem?_set_ne hroom hj.symm, zext16_addr_toNat nnn, fun _ => rfl⟩

/-- A pop takes the entry below the stack pointer (R141). -/
theorem State.pop_eq_of_top {s : State} {k : Fin 17} {w : Word} (hsp : s.sp.val = k.val + 1)
    (htop : s.stack[k.val]? = some w) : s.pop = some { s with sp := k, pc := w } := by
  obtain ⟨t, hpop, hframe, ht, hk, hpc⟩ := State.pop_entry (s := s) (by omega)
  have hk' : t.sp = k := Fin.ext (by omega)
  have hw : t.pc = w := by
    rw [hpc]
    exact Option.some.inj ((Vector.getElem?_eq_getElem hk).symm.trans (hk' ▸ htop))
  rw [hpop, hframe, hk', hw]

/-- Settles O20: the entry the return pops is the program counter the call pushed. -/
theorem callThenReturnRestoresPcAndDepth : Obligations.CallThenReturnRestoresPcAndDepth := by
  unfold Obligations.CallThenReturnRestoresPcAndDepth
  intro nnn u s hroom
  have htop : (s.stack.set s.sp.val s.pc hroom)[s.sp.val]? = some s.pc := Vector.getElem?_set_self hroom
  exact ⟨_, _, exec_call_room nnn hroom, exec_ret_entry u (State.pop_eq_of_top rfl htop), rfl⟩

/-! ### The jump to itself -/

theorem State.endedNormally_iff (s : State) : s.endedNormally = true ↔
    s.run = .running ∧ s.pc.toNat ≤ 0xFFE ∧ s.wordAtPc = 0x1000 + s.pc.toNat := by
  simp [State.endedNormally, and_assoc]

/-- A program counter inside memory is the target of the address immediate that holds its low twelve bits. -/
theorem zext16_setWidth_of_lt {w : Word} (h : w.toNat < 4096) : zext16 (w.setWidth 12 : Addr12) = w := by
  apply BitVec.eq_of_toNat_eq
  rw [zext16_addr_toNat, BitVec.toNat_setWidth]
  exact Nat.mod_eq_of_lt h

/-- The word `0x1000 + nnn` is the encoding of the jump to `nnn` (R95). -/
theorem ofNat_eq_encode_jp (nnn : Addr12) : BitVec.ofNat 16 (0x1000 + nnn.toNat) = encode (.jp nnn) := by
  have hnnn := nnn.isLt
  apply BitVec.eq_of_toNat_eq
  rw [encode, wordNNN_toNat, BitVec.toNat_ofNat]
  exact Nat.mod_eq_of_lt (by omega)

/-- Settles O21: the word at `pc` is a jump to `pc`, and it undoes the advance. -/
theorem jumpToItselfIsAFixedPoint : Obligations.JumpToItselfIsAFixedPoint := by
  unfold Obligations.JumpToItselfIsAFixedPoint
  intro s hended
  obtain ⟨hrun, hpc, hword⟩ := s.endedNormally_iff.1 hended
  have htarget : zext16 (s.pc.setWidth 12 : Addr12) = s.pc := zext16_setWidth_of_lt (by omega)
  have hjp : BitVec.ofNat 16 s.wordAtPc = encode (.jp (s.pc.setWidth 12)) := by
    rw [← ofNat_eq_encode_jp, hword, ← zext16_addr_toNat, htarget]
  have hfetch : s.fetch = some (encode (.jp (s.pc.setWidth 12))) := by rw [State.fetch_wordAtPc hpc, hjp]
  calc step s
    _ = exec (.jp (s.pc.setWidth 12)) s.advance := step_instr hrun hfetch (decodeOfEncodeGivesTheInstruction _).1
    _ = .next (s.advance.jump (zext16 (s.pc.setWidth 12 : Addr12))) := rfl
    _ = .next s := by rw [htarget]; rfl

end Sys2Proof.Machine

/-! Arithmetic and logic (42_arith_logic.md R160 to R173): the loads, the bitwise instructions, the sums, differences and
shifts with their flags, and the random draw. -/

namespace Sys2Proof.Machine

/-! ### Writing a result, with or without a flag -/

/-- The write of one register changes that register only. -/
theorem State.onlyV_setV (s : State) (x : Reg) (b : Byte) : s.OnlyV (s.setV x b) (· = x) :=
  ⟨rfl, fun _ hr => State.getV_setV_ne s hr b, fun _ => rfl⟩

/-- The write of a result and a flag changes the destination and VF only. -/
theorem State.onlyV_setVFlag (s : State) (x : Reg) (b : Byte) (f : Bool) :
    s.OnlyV (s.setVFlag x b f) (fun r => r = x ∨ r = regF) :=
  ⟨rfl, fun _ hr => State.getV_setVFlag_ne s (fun e => hr e.symm) b f, fun _ => rfl⟩

/-- The flag is written last, so VF holds it whatever the destination is (R173). -/
theorem State.getV_setVFlag_flag (s : State) (x : Reg) (b : Byte) (f : Bool) :
    (s.setVFlag x b f).getV regF = flagByte f :=
  State.getV_setV_same _ _ _

/-- A destination other than VF holds the result. -/
theorem State.getV_setVFlag_result (s : State) {x : Reg} (hx : x ≠ regF) (b : Byte) (f : Bool) :
    (s.setVFlag x b f).getV x = b := by
  rw [State.getV_setVFlag, if_neg hx, if_pos rfl]

/-! ### Results and flags as numbers -/

theorem addBytes_toNat (a b : Byte) : (addBytes a b).toNat = (a.toNat + b.toNat) % 256 := BitVec.toNat_ofNat _ _

/-- The difference is reduced from the exact integer, which may be negative (R172). -/
theorem subBytes_toNat (a b : Byte) : ((subBytes a b).toNat : Int) = ((a.toNat : Int) - b.toNat) % 256 := by
  rw [subBytes, BitVec.toNat_ofInt]
  exact Int.toNat_of_nonneg (Int.emod_nonneg _ (by decide))

theorem shiftRight1_toNat (a : Byte) : (shiftRight1 a).toNat = a.toNat / 2 :=
  Nat.mod_eq_of_lt ((Nat.div_le_self _ _).trans_lt a.isLt)

theorem shiftLeft1_toNat (a : Byte) : (shiftLeft1 a).toNat = a.toNat * 2 % 256 := BitVec.toNat_ofNat _ _

/-- A flag that decides `p` writes 1 into VF where `p` holds and 0 where it does not. -/
theorem flagByte_decide (p : Prop) [Decidable p] : flagByte (decide p) = if p then 1 else 0 := by
  simp [flagByte]

theorem flagByte_toNat (f : Bool) : (flagByte f).toNat = f.toNat := by cases f <;> rfl

/-- What a right shift moves out is the remainder by 2 (R169). -/
theorem flagByte_shiftOutRight (a : Byte) : (flagByte (shiftOutRight a)).toNat = a.toNat % 2 := by
  rw [flagByte_toNat, shiftOutRight, BitVec.getLsbD, Nat.toNat_testBit, pow_zero, Nat.div_one]

/-- What a left shift moves out is the quotient by 128, itself 0 or 1 for a byte (R170). -/
theorem flagByte_shiftOutLeft (a : Byte) : (flagByte (shiftOutLeft a)).toNat = a.toNat / 128 := by
  have ha : a.toNat / 128 < 2 := Nat.div_lt_of_lt_mul a.isLt
  rw [flagByte_toNat, shiftOutLeft, BitVec.getLsbD, Nat.toNat_testBit]
  exact Nat.mod_eq_of_lt ha

/-! ### Loads and immediate addition -/

/-- Settles O22: each load is the write of its operand. -/
theorem loadsIntoARegister : Obligations.LoadsIntoARegister := by
  unfold Obligations.LoadsIntoARegister
  intro x y nn s
  exact ⟨⟨wordXNN_mask_family _ _ _, wordXYN_mask _ _ _ _⟩,
    ⟨_, rfl, State.getV_setV_same _ _ _, s.onlyV_setV _ _⟩, ⟨_, rfl, State.getV_setV_same _ _ _, s.onlyV_setV _ _⟩⟩

/-- Settles O24: the sum is written to the destination, and no flag after it. -/
theorem addImmediateWrapsWithoutFlag : Obligations.AddImmediateWrapsWithoutFlag := by
  unfold Obligations.AddImmediateWrapsWithoutFlag
  intro x nn s
  refine ⟨wordXNN_mask_family _ _ _, _, rfl, s.onlyV_setV _ _, ?_⟩
  rw [State.getV_setV_same, addBytes_toNat]

/-! ### Bitwise instructions -/

/-- Settles O23: what is written to the destination is the bitwise operation of the two operands. -/
theorem logicIsBitwiseWithoutFlags : Obligations.LogicIsBitwiseWithoutFlags := by
  unfold Obligations.LogicIsBitwiseWithoutFlags
  intro x y s
  refine ⟨⟨wordXYN_mask _ _ _ _, wordXYN_mask _ _ _ _, wordXYN_mask _ _ _ _⟩,
    ⟨_, rfl, s.onlyV_setV _ _, fun k _ => ?_⟩, ⟨_, rfl, s.onlyV_setV _ _, fun k _ => ?_⟩,
    ⟨_, rfl, s.onlyV_setV _ _, fun k _ => ?_⟩⟩
  · rw [State.getV_setV_same, BitVec.getLsbD_or]
  · rw [State.getV_setV_same, BitVec.getLsbD_and]
  · rw [State.getV_setV_same, BitVec.getLsbD_xor]

/-! ### Instructions that write a flag -/

/-- Settles O25: the wrapped sum is written first, then the flag that decides the carry. -/
theorem addRegistersWithCarry : Obligations.AddRegistersWithCarry := by
  unfold Obligations.AddRegistersWithCarry
  intro x y s
  refine ⟨wordXYN_mask _ _ _ _, _, rfl, s.onlyV_setVFlag _ _ _, fun hx => ?_, ?_⟩
  · rw [State.getV_setVFlag_result s hx, addBytes_toNat]
  · rw [State.getV_setVFlag_flag, carryOf, flagByte_decide]

/-- Settles O26: the wrapped difference is written first, then the flag that decides the not-borrow. -/
theorem subtractionsWithNotBorrow : Obligations.SubtractionsWithNotBorrow := by
  unfold Obligations.SubtractionsWithNotBorrow
  intro x y s
  refine ⟨⟨wordXYN_mask _ _ _ _, wordXYN_mask _ _ _ _⟩, ⟨_, rfl, s.onlyV_setVFlag _ _ _, fun hx => ?_, ?_⟩,
    ⟨_, rfl, s.onlyV_setVFlag _ _ _, fun hx => ?_, ?_⟩⟩
  · rw [State.getV_setVFlag_result s hx, subBytes_toNat]
  · rw [State.getV_setVFlag_flag, notBorrowOf, flagByte_decide]
  · rw [State.getV_setVFlag_result s hx, subBytes_toNat]
  · rw [State.getV_setVFlag_flag, notBorrowOf, flagByte_decide]

/-- Settles O27: the shifted byte is written first, then the bit that was moved out of it. -/
theorem shiftsMoveOneBitIntoVF : Obligations.ShiftsMoveOneBitIntoVF := by
  unfold Obligations.ShiftsMoveOneBitIntoVF
  intro x y s
  refine ⟨⟨wordXYN_mask _ _ _ _, wordXYN_mask _ _ _ _⟩, ⟨_, rfl, s.onlyV_setVFlag _ _ _, fun hx => ?_, ?_⟩,
    ⟨_, rfl, s.onlyV_setVFlag _ _ _, fun hx => ?_, ?_⟩⟩
  · rw [State.getV_setVFlag_result s hx, shiftRight1_toNat]
  · rw [State.getV_setVFlag_flag, flagByte_shiftOutRight]
  · rw [State.getV_setVFlag_result s hx, shiftLeft1_toNat]
  · rw [State.getV_setVFlag_flag, flagByte_shiftOutLeft]

/-! ### The random draw -/

/-- A masked byte has no bit outside its mask. -/
theorem and_and_not_mask (b mask : Byte) : b &&& mask &&& ~~~mask = 0 := by
  rw [BitVec.and_assoc, BitVec.and_not_self, and_zero_bits]

/-- Settles O28: the drawn byte is masked before it is written, and beside that write the draw is only counted. -/
theorem rndIsADrawMaskedByTheImmediate : Obligations.RndIsADrawMaskedByTheImmediate := by
  unfold Obligations.RndIsADrawMaskedByTheImmediate
  intro x nn s
  refine ⟨wordXNN_mask_family _ _ _, _, rfl, rfl, State.getV_setV_same _ _ _, ?_, fun r hr => ?_, fun _ => rfl⟩
  · rw [State.getV_setV_same, and_and_not_mask]
  · exact State.getV_setV_ne _ hr _

end Sys2Proof.Machine

/-! The display (43_display.md R190, R191): what a draw does to pixels and collision flag, what a draw that faults may
leave, and the same draw twice. -/

namespace Sys2Proof.Machine

/-! ### Drawing, by the pixel under a sprite bit -/

/-- The pixel under a sprite bit is the one at the wrapped row and the wrapped column that drawing writes. -/
theorem underSprite_iff {vx vy : Byte} {row col : Nat} {r : Fin Config.dispRows} {c : Fin Config.dispCols} :
    UnderSprite vx vy row col r c ↔ r = wrapRow (vy.toNat + row) ∧ c = wrapCol (vx.toNat + col) := by
  rw [Fin.ext_iff, Fin.ext_iff]
  rfl

/-- A 1 bit of the first `n` sprite rows lies over a pixel that holds `b`. -/
def State.SpriteMeets (s : State) (vx vy : Byte) (n : Nat) (b : Bool) : Prop :=
  ∃ row < n, ∃ col < 8, ∃ r c, UnderSprite vx vy row col r c ∧ s.spriteBit row col = true ∧ s.disp.pixel r c = b

section
variable {s : State} {vx vy : Byte} {n : Nat} (hn : n ≤ 32)
include hn

/-- A pixel under a sprite bit is XORed with it, old pixel and bit being those before the draw (R190). -/
theorem State.drawing_pixel_under {row col : Nat} (hrow : row < n) (hcol : col < 8) {r : Fin Config.dispRows}
    {c : Fin Config.dispCols} (hu : UnderSprite vx vy row col r c) :
    (s.drawing vx vy n).disp.pixel r c = (s.disp.pixel r c ^^ s.spriteBit row col) := by
  obtain ⟨hunder, -, -⟩ := s.drawing_spec vx vy n hn
  obtain ⟨rfl, rfl⟩ := underSprite_iff.1 hu
  exact hunder row hrow col hcol

/-- A pixel under no sprite bit stays (R190). -/
theorem State.drawing_pixel_outside {r : Fin Config.dispRows} {c : Fin Config.dispCols}
    (hu : ∀ row < n, ∀ col < 8, ¬ UnderSprite vx vy row col r c) :
    (s.drawing vx vy n).disp.pixel r c = s.disp.pixel r c := by
  obtain ⟨-, houtside, -⟩ := s.drawing_spec vx vy n hn
  exact houtside r c fun row hrow col hcol h => hu row hrow col hcol (underSprite_iff.2 h)

/-- A drawn pixel is old, or it lies under a sprite bit and is XORed with it. -/
theorem State.drawing_pixel_cases (r : Fin Config.dispRows) (c : Fin Config.dispCols) :
    (s.drawing vx vy n).disp.pixel r c = s.disp.pixel r c ∨
      ∃ row < n, ∃ col < 8, UnderSprite vx vy row col r c ∧
        (s.drawing vx vy n).disp.pixel r c = (s.disp.pixel r c ^^ s.spriteBit row col) := by
  by_cases hu : ∃ row < n, ∃ col < 8, UnderSprite vx vy row col r c
  · obtain ⟨row, hrow, col, hcol, hu⟩ := hu
    exact .inr ⟨row, hrow, col, hcol, hu, drawing_pixel_under hn hrow hcol hu⟩
  · exact .inl (drawing_pixel_outside hn fun row hrow col hcol h => hu ⟨row, hrow, col, hcol, h⟩)

/-- The collision flag is set iff a 1 bit of the sprite lies over a pixel that is 1 (R190). -/
theorem State.drawing_hit_iff : (s.drawing vx vy n).hit = true ↔ s.SpriteMeets vx vy n true := by
  obtain ⟨-, -, hhit⟩ := s.drawing_spec vx vy n hn
  rw [hhit]
  constructor
  · rintro ⟨row, hrow, col, hcol, hbit, hpixel⟩
    exact ⟨row, hrow, col, hcol, _, _, underSprite_iff.2 ⟨rfl, rfl⟩, hbit, hpixel⟩
  · rintro ⟨row, hrow, col, hcol, r, c, hu, hbit, hpixel⟩
    obtain ⟨rfl, rfl⟩ := underSprite_iff.1 hu
    exact ⟨row, hrow, col, hcol, hbit, hpixel⟩

end

/-! ### VF as the collision flag -/

theorem flagByte_eq_one_or_zero (f : Bool) : flagByte f = 1 ∨ flagByte f = 0 := by revert f; decide

theorem flagByte_eq_one_iff {f : Bool} : flagByte f = 1 ↔ f = true := by revert f; decide

theorem State.getV_draw_flag (s : State) (vx vy : Byte) (n : Nat) :
    (s.draw vx vy n).getV regF = flagByte (s.drawing vx vy n).hit := by
  rw [State.getV_draw, if_pos rfl]

theorem State.getV_draw_ne (s : State) (vx vy : Byte) (n : Nat) {r : Reg} (hr : r ≠ regF) :
    (s.draw vx vy n).getV r = s.getV r := by
  rw [State.getV_draw, if_neg hr]

/-- VF after a draw is 1 or 0, and 1 iff the sprite met a pixel that was 1 (R190). -/
theorem State.draw_flag_spec (s : State) (vx vy : Byte) {n : Nat} (hn : n ≤ 32) :
    ((s.draw vx vy n).getV regF = 1 ∨ (s.draw vx vy n).getV regF = 0) ∧
      ((s.draw vx vy n).getV regF = 1 ↔ s.SpriteMeets vx vy n true) := by
  rw [State.getV_draw_flag]
  exact ⟨flagByte_eq_one_or_zero _, flagByte_eq_one_iff.trans (State.drawing_hit_iff hn)⟩

/-- A sprite height is below the display's, so no two sprite rows fall on one display row. -/
theorem nibble_le_dispRows (n : Nibble) : n.toNat ≤ 32 := n.isLt.le.trans (by decide)

/-- Settles O29: in range `DRW` is the draw of the sprite and its flag, otherwise the fault raised after what is left of
the draw, which keeps `pc`. -/
theorem drwXorsTheSpriteAndReportsCollision : Obligations.DrwXorsTheSpriteAndReportsCollision := by
  unfold Obligations.DrwXorsTheSpriteAndReportsCollision
  intro x y n s
  have hn := nibble_le_dispRows n
  obtain ⟨hflag, hcollision⟩ := s.draw_flag_spec (s.getV x) (s.getV y) hn
  refine ⟨wordXYN_mask_family _ _ _ _, fun h => ?_, fun h h' => ⟨_, exec_drw_fault x y h h', ?_⟩⟩
  · exact ⟨_, exec_drw_inRange x y h, rfl, fun _ => s.getV_draw_ne _ _ _, fun _ => rfl,
      fun _ hrow _ hcol _ _ => State.drawing_pixel_under hn hrow hcol,
      fun _ _ => State.drawing_pixel_outside hn, hflag, hcollision⟩
  · exact (s.drawSome _ _ _).faultedBy_raise _ _

/-! ### A draw that faults -/

/-- The sprite rows below the count of rows in range are those whose address is in memory (R66). -/
theorem lt_inRangeCount_iff {a n row : Nat} : row < inRangeCount a n ↔ row < n ∧ a + row ≤ 0xFFF := by
  rw [inRangeCount, Nat.lt_min, show Config.memSize = 4096 from rfl]
  omega

/-- A pixel after a draw that faulted is old, or under a sprite row in range and XORed (R269). -/
theorem State.drawSome_pixel_cases (s : State) (vx vy : Byte) {n : Nat} (hn : n ≤ 32) (r : Fin Config.dispRows)
    (c : Fin Config.dispCols) :
    (s.drawSome vx vy n).disp.pixel r c = s.disp.pixel r c ∨
      ∃ row < inRangeCount s.i.toNat n, ∃ col < 8, UnderSprite vx vy row col r c ∧
        (s.drawSome vx vy n).disp.pixel r c = (s.disp.pixel r c ^^ s.spriteBit row col) := by
  rw [State.drawSome_pixel]
  split
  · exact .inl rfl
  · exact State.drawing_pixel_cases ((Nat.min_le_left _ _).trans hn) r c

/-- VF after a draw that faulted is old, 0, or 1 if a sprite row in range met a pixel that was 1 (R191 item 11, R269). -/
theorem State.drawSome_flag_cases (s : State) (vx vy : Byte) {n : Nat} (hn : n ≤ 32) :
    (s.drawSome vx vy n).getV regF = s.getV regF ∨ (s.drawSome vx vy n).getV regF = 0 ∨
      ((s.drawSome vx vy n).getV regF = 1 ∧ s.SpriteMeets vx vy (inRangeCount s.i.toNat n) true) := by
  rw [State.getV_drawSome, if_pos rfl]
  split
  · exact .inl rfl
  · rcases flagByte_eq_one_or_zero
      ((s.drawing vx vy (inRangeCount s.i.toNat n)).hit && !s.keeps .collision) with h1 | h0
    · obtain ⟨hhit, -⟩ := (Bool.and_eq_true _ _).mp (flagByte_eq_one_iff.1 h1)
      exact .inr (.inr ⟨h1, (State.drawing_hit_iff ((Nat.min_le_left _ _).trans hn)).1 hhit⟩)
    · exact .inr (.inl h0)

/-- Settles O30: the fault is raised after what is left of the draw, whose pixels and VF come from the rows in range. -/
theorem faultedDrwKeepsEverythingOutsideItsWriteSet : Obligations.FaultedDrwKeepsEverythingOutsideItsWriteSet := by
  unfold Obligations.FaultedDrwKeepsEverythingOutsideItsWriteSet
  intro x y n s h h'
  have hn := nibble_le_dispRows n
  have hexec := exec_drw_fault x y h h'
  refine ⟨_, hexec, (s.drawSome _ _ _).faultedBy_raise _ _, rfl, fun r => exec_drw_getV hexec, fun r c => ?_, ?_⟩
  · refine (s.drawSome_pixel_cases _ _ hn r c).imp_right ?_
    rintro ⟨row, hrow, col, hcol, hu, hpixel⟩
    obtain ⟨hrow, hmem⟩ := lt_inRangeCount_iff.1 hrow
    exact ⟨row, hrow, col, hcol, hmem, hu, hpixel⟩
  · refine (s.drawSome_flag_cases _ _ hn).imp_right (.imp_right (.imp_right ?_))
    rintro ⟨row, hrow, col, hcol, hmeets⟩
    obtain ⟨hrow, hmem⟩ := lt_inRangeCount_iff.1 hrow
    exact ⟨row, hrow, col, hcol, hmem, hmeets⟩

/-! ### The same draw twice -/

/-- A draw leaves the sprite it reads alone. -/
theorem State.spriteBit_draw (s : State) (vx vy : Byte) (n row col : Nat) :
    (s.draw vx vy n).spriteBit row col = s.spriteBit row col := rfl

/-- XORing every pixel under the sprite twice gives the display back. -/
theorem State.drawing_draw_disp (s : State) (vx vy : Byte) {n : Nat} (hn : n ≤ 32) :
    ((s.draw vx vy n).drawing vx vy n).disp = s.disp := by
  refine display_ext fun r c => ?_
  by_cases hu : ∃ row < n, ∃ col < 8, UnderSprite vx vy row col r c
  · obtain ⟨row, hrow, col, hcol, hu⟩ := hu
    calc ((s.draw vx vy n).drawing vx vy n).disp.pixel r c
      _ = ((s.draw vx vy n).disp.pixel r c ^^ (s.draw vx vy n).spriteBit row col) :=
        drawing_pixel_under hn hrow hcol hu
      _ = ((s.disp.pixel r c ^^ s.spriteBit row col) ^^ s.spriteBit row col) := by
        rw [State.spriteBit_draw, State.draw_frame, drawing_pixel_under hn hrow hcol hu]
      _ = s.disp.pixel r c := by rw [Bool.xor_assoc, Bool.xor_self, Bool.xor_false]
  · have houtside : ∀ row < n, ∀ col < 8, ¬ UnderSprite vx vy row col r c :=
      fun row hrow col hcol h => hu ⟨row, hrow, col, hcol, h⟩
    exact (drawing_pixel_outside hn houtside).trans (drawing_pixel_outside hn houtside)

/-- After a draw the pixels that 1 bits of the sprite meet are the inverses of those they met before it. -/
theorem State.spriteMeets_draw_iff (s : State) (vx vy : Byte) {n : Nat} (hn : n ≤ 32) :
    (s.draw vx vy n).SpriteMeets vx vy n true ↔ s.SpriteMeets vx vy n false := by
  refine exists_congr fun row => and_congr_right fun hrow => exists_congr fun col => and_congr_right fun hcol =>
    exists₂_congr fun r c => and_congr_right fun hu => and_congr_right fun hbit => ?_
  rw [State.spriteBit_draw] at hbit
  rw [State.draw_frame, drawing_pixel_under hn hrow hcol hu, hbit, Bool.xor_true, Bool.not_eq_true']

/-- Settles O31: the second draw reads the coordinates, I and the memory the first one left alone. -/
theorem drawingTwiceRestoresTheDisplay : Obligations.DrawingTwiceRestoresTheDisplay := by
  unfold Obligations.DrawingTwiceRestoresTheDisplay
  intro x y n s hx hy h
  have hn := nibble_le_dispRows n
  have hsecond : exec (.drw x y n) (s.draw (s.getV x) (s.getV y) n.toNat) =
      .next ((s.draw (s.getV x) (s.getV y) n.toNat).draw (s.getV x) (s.getV y) n.toNat) := by
    rw [exec_drw_inRange (s := s.draw _ _ _) x y h, State.getV_draw_ne _ _ _ _ hx, State.getV_draw_ne _ _ _ _ hy]
  obtain ⟨hflag, hcollision⟩ := (s.draw (s.getV x) (s.getV y) n.toNat).draw_flag_spec (s.getV x) (s.getV y) hn
  exact ⟨_, _, exec_drw_inRange x y h, hsecond, s.drawing_draw_disp _ _ hn, hflag,
    hcollision.trans (s.spriteMeets_draw_iff _ _ hn)⟩

end Sys2Proof.Machine

/-! Index, memory transfer, BCD and timers (44_memory_bcd_timer.md R200 to R208): what the three writers of I put there,
what a block store leaves in memory and a block load in the registers, and the timer moves. -/

namespace Sys2Proof.Machine

/-! ### The index register -/

theorem indexSum_toNat (i : Word) (b : Byte) : (indexSum i b).toNat = (i.toNat + b.toNat) % 65536 :=
  BitVec.toNat_ofNat _ _

/-- The glyph address of any byte fits I, so it is exact (R202). -/
theorem glyphAddr_toNat (b : Byte) : (glyphAddr b).toNat = b.toNat * 5 := by
  have hb := b.isLt
  exact Nat.mod_eq_of_lt (by omega)

/-- Settles O32: each of the three is the write of its address to I. -/
theorem indexInstructionsWriteI : Obligations.IndexInstructionsWriteI := by
  unfold Obligations.IndexInstructionsWriteI
  intro x nnn s
  exact ⟨⟨wordNNN_mask _ _, wordXNN_mask _ _ _, wordXNN_mask _ _ _⟩,
    ⟨_, rfl, rfl, zext16_addr_toNat nnn, fun _ => rfl⟩, ⟨_, rfl, rfl, indexSum_toNat _ _, fun _ => rfl⟩,
    ⟨_, rfl, rfl, glyphAddr_toNat _, fun _ => rfl⟩⟩

/-! ### Memory after a block store, and its fault -/

/-- A fault raised after partial writes that keep `pc` has the record of one raised before them (R268, R269). -/
theorem State.faultedBy_raise_of_pc {s g : State} (hpc : g.pc = s.pc) (c : FaultCause) (op : Word) :
    s.FaultedBy (g.raise c op) c op := by
  rw [State.FaultedBy, ← hpc]
  exact g.faultedBy_raise c op

/-- A block written in range is read back byte by byte. -/
theorem read_writeBytes_inside {m : Memory} (hm : m.wf = true) {a k : Nat} {bs : List Byte}
    (hfits : a + bs.length ≤ 4096) (hk : k < bs.length) : (m.writeBytes a bs).read (a + k) = bs[k] := by
  rw [read_writeBytes bs hm (.inr hfits), if_pos (Nat.le_add_right _ _), Nat.add_sub_cancel_left,
    List.getD_eq_getElem _ _ hk]

/-- A block written in range leaves every byte outside it alone. -/
theorem read_writeBytes_outside {m : Memory} (hm : m.wf = true) {a a' : Nat} {bs : List Byte}
    (hfits : a + bs.length ≤ 4096) (ha' : a' < a ∨ a + bs.length ≤ a') :
    (m.writeBytes a bs).read a' = m.read a' := by
  rw [read_writeBytes bs hm (.inr hfits)]
  rcases ha' with hbelow | habove
  · rw [if_neg (by omega)]
  · rw [List.getD_eq_default _ _ (by omega), ite_self]

/-! ### The decimal digits -/

theorem bcdDigits_length (b : Byte) : (bcdDigits b).length = 3 := rfl

/-- A block of the digits of `b` written in range is read back as the digits, none of them reduced (R203). -/
theorem read_writeBytes_bcdDigits {m : Memory} (hm : m.wf = true) {a : Nat} (hin : a + 2 ≤ 0xFFF) (b : Byte) :
    ((m.writeBytes a (bcdDigits b)).read a).toNat = b.toNat / 100 ∧
      ((m.writeBytes a (bcdDigits b)).read (a + 1)).toNat = b.toNat / 10 % 10 ∧
      ((m.writeBytes a (bcdDigits b)).read (a + 2)).toNat = b.toNat % 10 := by
  have hb := b.isLt
  have hlen := bcdDigits_length b
  have hdigit (k : Nat) (hk : k < (bcdDigits b).length) :
      ((m.writeBytes a (bcdDigits b)).read (a + k)).toNat = (bcdDigits b)[k].toNat :=
    congrArg BitVec.toNat (read_writeBytes_inside hm (by omega) hk)
  refine ⟨(hdigit 0 (by omega)).trans ?_, (hdigit 1 (by omega)).trans ?_, (hdigit 2 (by omega)).trans ?_⟩
  · exact Nat.mod_eq_of_lt (by omega)
  · exact Nat.mod_eq_of_lt (by omega)
  · exact Nat.mod_eq_of_lt (by omega)

/-- Settles O33: in range the digits are written as one block, otherwise the fault is raised after what is left of that
write, which keeps `pc`. -/
theorem ldBStoresTheDecimalDigits : Obligations.LdBStoresTheDecimalDigits := by
  unfold Obligations.LdBStoresTheDecimalDigits
  intro x s
  refine ⟨wordXNN_mask _ _ _, fun hm hin => ?_,
    fun h => ⟨_, exec_ldBVx_fault x h, State.faultedBy_raise_of_pc rfl _ _⟩⟩
  have hfits : s.i.toNat + (bcdDigits (s.getV x)).length ≤ 4096 := by rw [bcdDigits_length]; omega
  obtain ⟨hhundreds, htens, hones⟩ := read_writeBytes_bcdDigits hm hin (s.getV x)
  refine ⟨_, exec_ldBVx_inRange x hin, rfl, hhundreds, htens, hones, fun a ha => ?_⟩
  exact read_writeBytes_outside hm hfits (by rw [bcdDigits_length]; omega)

/-! ### Block transfers -/

/-- Settles O34: in range the registers are written as one block, otherwise the fault is raised after what is left of
that write, which keeps `pc`. -/
theorem ldMemStoresTheRegisters : Obligations.LdMemStoresTheRegisters := by
  unfold Obligations.LdMemStoresTheRegisters
  intro x s
  refine ⟨wordXNN_mask _ _ _, fun hm hin => ?_,
    fun h => ⟨_, exec_ldMemVx_fault x h, State.faultedBy_raise_of_pc rfl _ _⟩⟩
  have hfits : s.i.toNat + (s.regBytes x).length ≤ 4096 := by rw [State.regBytes_length]; omega
  refine ⟨_, exec_ldMemVx_inRange x hin, rfl, fun r hr => State.read_writeBytes_regBytes hm hin hr, fun a ha => ?_⟩
  exact read_writeBytes_outside hm hfits (by rw [State.regBytes_length]; omega)

/-- A block load changes the registers it counts only. -/
theorem State.onlyV_loadRegs (s : State) {n : Nat} (hn : n ≤ 16) : s.OnlyV (s.loadRegs n) (fun r => r.toNat < n) :=
  ⟨s.loadRegs_frame n, fun _ hr => s.getV_loadRegs_above hn (Nat.le_of_not_lt hr),
    fun _ => by rw [s.loadRegs_frame n]⟩

/-- Settles O35: in range the first `x + 1` registers are loaded, otherwise the fault is raised after what is left of
that load, which keeps `pc`. -/
theorem ldRegsLoadsFromMemory : Obligations.LdRegsLoadsFromMemory := by
  unfold Obligations.LdRegsLoadsFromMemory
  intro x s
  have hx : x.toNat + 1 ≤ 16 := x.isLt
  refine ⟨wordXNN_mask _ _ _, fun hin => ?_, fun h => ⟨_, exec_ldVxMem_fault x h, ?_⟩⟩
  · obtain ⟨hframe, hkept, hmem⟩ := s.onlyV_loadRegs hx
    refine ⟨_, exec_ldVxMem_inRange x hin, ⟨hframe, fun r hr => hkept r (by omega), hmem⟩, fun r hr => ?_⟩
    rw [State.getV_loadRegs s r _ hx, if_pos (by omega)]
  · exact State.faultedBy_raise_of_pc (by rw [State.loadSomeRegs_frame]) _ _

/-- A block load of bytes that the registers already hold changes nothing. -/
theorem exec_ldVxMem_of_held {s : State} {x : Reg} (hin : s.i.toNat + x.toNat ≤ 0xFFF)
    (hheld : ∀ r : Reg, r.toNat ≤ x.toNat → s.mem.read (s.i.toNat + r.toNat) = s.getV r) :
    exec (.ldVxMem x) s = .next s := by
  have hv : (s.loadRegs (x.toNat + 1)).v = s.v := State.v_ext fun r => by
    rw [State.getV_loadRegs s r _ x.isLt]
    split
    next hr => exact hheld r (Nat.le_of_lt_succ hr)
    next => rfl
  rw [exec_ldVxMem_inRange x hin, State.loadRegs_frame, hv]

/-- Settles O38: after the store, which leaves I and the registers, memory at I holds what the registers hold. -/
theorem storeThenLoadRestoresTheRegisters : Obligations.StoreThenLoadRestoresTheRegisters := by
  unfold Obligations.StoreThenLoadRestoresTheRegisters
  intro x s hm hin
  exact ⟨_, exec_ldMemVx_inRange x hin, exec_ldVxMem_of_held (s := { s with mem := _ }) hin
    fun r hr => State.read_writeBytes_regBytes hm hin hr⟩

/-! ### The timer moves -/

/-- Settles O40: each move is one write, of a register or of a timer. -/
theorem timerMoves : Obligations.TimerMoves := by
  unfold Obligations.TimerMoves
  intro x s
  exact ⟨⟨wordXNN_mask _ _ _, wordXNN_mask _ _ _, wordXNN_mask _ _ _⟩,
    ⟨_, rfl, State.getV_setV_same _ _ _, s.onlyV_setV _ _⟩, ⟨_, rfl, rfl, rfl, fun _ => rfl⟩,
    ⟨_, rfl, rfl, rfl, fun _ => rfl⟩⟩

end Sys2Proof.Machine

/-! Input and the key wait (45_input_keywait.md R220 to R224): the key that a byte up to 15 names, the two key skips on it,
and the entry into the wait. -/

namespace Sys2Proof.Machine

/-- An entry found in the key table at a byte is the state of the key that the byte names, and the byte is in range. -/
theorem State.keyDown_of_getElem? {s : State} {b : Byte} {down : Bool} (h : s.keys[b.toNat]? = some down) :
    b.toNat ≤ 15 ∧ s.keyDown (b.setWidth 4) = down := by
  obtain ⟨hb, hdown⟩ := Vector.getElem?_eq_some_iff.1 h
  have hcode : (b.setWidth 4).toNat = b.toNat := by rw [BitVec.toNat_setWidth]; exact Nat.mod_eq_of_lt hb
  refine ⟨Nat.le_of_lt_succ hb, ?_⟩
  simp only [State.keyDown, hcode, hdown]

/-- Settles O42: up to 15 each skip tests the state of the key found in the table, above 15 its fault is raised in the
state it was given. -/
theorem keySkipsTestTheKeyNamedByVx : Obligations.KeySkipsTestTheKeyNamedByVx := by
  unfold Obligations.KeySkipsTestTheKeyNamedByVx
  intro x s
  refine ⟨⟨wordXNN_mask _ _ _, wordXNN_mask _ _ _⟩, fun down hdown => ?_, fun h => ?_⟩
  · obtain ⟨hkey, hstate⟩ := State.keyDown_of_getElem? hdown
    rw [exec_skp_key x hkey, exec_sknp_key x hkey, hstate]
    exact ⟨congrArg Host.Outcome.next (s.skipIf_eq_of_iff Iff.rfl),
      congrArg Host.Outcome.next (s.skipIf_eq_of_iff (Bool.not_eq_true' down).to_iff)⟩
  · exact ⟨⟨_, exec_skp_fault x h, s.faultedBy_raise _ _, s.onlyFault_raise _ _⟩,
      ⟨_, exec_sknp_fault x h, s.faultedBy_raise _ _, s.onlyFault_raise _ _⟩⟩

/-- Settles O41: the meaning is the write of the run state, and it reads no key. -/
theorem ldKEntersTheKeyWait : Obligations.LdKEntersTheKeyWait := by
  unfold Obligations.LdKEntersTheKeyWait
  exact fun x s => ⟨wordXNN_mask _ _ _, _, rfl, rfl, rfl, fun _ => rfl⟩

end Sys2Proof.Machine

/-! The host operations other than `step` and `reset` (46_host_operations.md R236 to R239): what an accepted operation
writes, and that FAULTED ignores it. -/

namespace Sys2Proof.Machine

/-- Settles O44: an accepted tick writes the two timers, each taken down by one. -/
theorem tickDecrementsBothTimers : Obligations.TickDecrementsBothTimers := by
  unfold Obligations.TickDecrementsBothTimers
  refine fun s => ⟨_, rfl, fun hrun => State.unlessFaulted_faulted hrun _, fun hlive => ?_⟩
  rw [State.tickTimers_live hlive]
  exact ⟨rfl, tickDown_toNat _, tickDown_toNat _⟩

/-- A key code widened to a byte keeps its value. -/
theorem zext8_toNat (k : Key) : (zext8 k).toNat = k.toNat := BitVec.toNat_setWidth_of_le (by decide)

/-- Settles O45: by the run state. A running core records the key only; a key wait then also writes the waiting register,
which no key state depends on. -/
theorem setKeyMarksTheKeyAndResolvesAWait : Obligations.SetKeyMarksTheKeyAndResolvesAWait := by
  unfold Obligations.SetKeyMarksTheKeyAndResolvesAWait
  refine fun k s => ⟨_, rfl, fun hrun => State.unlessFaulted_faulted hrun _, fun hlive => ?_⟩
  cases hrun : s.run with
  | faulted => exact absurd hrun hlive
  | running =>
    rw [State.setKey_running hrun]
    exact ⟨by rw [← hrun]; rfl, (s.keyDown_putKey k · true), fun _ => rfl, nofun⟩
  | waitingForKey x =>
    rw [State.setKey_waiting hrun]
    refine ⟨rfl, (s.keyDown_putKey k · true), nofun, ?_⟩
    rintro _ ⟨⟩
    have hcode : ((s.putKey k true).setV x (zext8 k)).getV x = zext8 k := State.getV_setV_same _ _ _
    exact ⟨(congrArg BitVec.toNat hcode).trans (zext8_toNat k), fun r hr => (s.putKey k true).getV_setV_ne hr _⟩

/-- Settles O46: an accepted key-up event records the key, in every run state but FAULTED. -/
theorem clearKeyMarksTheKeyUp : Obligations.ClearKeyMarksTheKeyUp := by
  unfold Obligations.ClearKeyMarksTheKeyUp
  refine fun k s => ⟨_, rfl, fun hrun => State.unlessFaulted_faulted hrun _, fun hlive => ?_⟩
  rw [State.clearKey_live hlive]
  exact ⟨rfl, (s.keyDown_putKey k · false)⟩

/-- Settles O47: an image too large latches the fault and writes no memory; one that fits ends at or below 0x1000, so it is
written as one block in range. -/
theorem loadProgramPlacesTheImageOrFaults : Obligations.LoadProgramPlacesTheImageOrFaults := by
  unfold Obligations.LoadProgramPlacesTheImageOrFaults
  refine fun bytes s => ⟨_, rfl, fun hrun => State.unlessFaulted_faulted hrun _,
    fun hlive hlarge => State.loadProgram_tooLarge hlive hlarge, fun hlive hlen hm => ?_⟩
  have hfits : 0x200 + bytes.length ≤ 4096 := by omega
  rw [State.loadProgram_fits hlive hlen]
  exact ⟨rfl, fun k hk => read_writeBytes_inside hm hfits hk, fun a ha => read_writeBytes_outside hm hfits ha⟩

end Sys2Proof.Machine

/-! Exceptions and reset (60_exceptions.md R268, R269, 70_reset_and_hazards.md R291): what a block transfer that faults may
leave within its write set, and what the reset operation restores. -/

namespace Sys2Proof.Machine

/-! ### Block stores that fault -/

/-- A byte after a block store that faulted is old, or in range and the byte stored at its own address (R269). -/
theorem read_writeSome_cases (keep : Nat → Bool) {m : Memory} (hm : m.wf = true) (a : Nat) (bs : List Byte) (a' : Nat) :
    (Memory.writeSome keep m a bs).read a' = m.read a' ∨
      ∃ k, ∃ hk : k < bs.length, a' = a + k ∧ a' ≤ 0xFFF ∧ (Memory.writeSome keep m a bs).read a' = bs[k] := by
  rw [read_writeSome keep bs hm]
  split
  next hstored =>
    obtain ⟨hle, hrange, -⟩ := hstored
    have hmem := (addrInRange_iff a').1 hrange
    rcases Nat.lt_or_ge (a' - a) bs.length with hk | hk
    · exact .inr ⟨a' - a, hk, by omega, by omega, List.getD_eq_getElem _ _ hk⟩
    · exact .inl (List.getD_eq_default _ _ hk)
  next => exact .inl rfl

/-- The first two digits of a byte are its hundreds and tens, exact: both fit a byte (R203). -/
theorem bcdDigits_hundreds_tens (b : Byte) :
    ((bcdDigits b)[0]'(by simp [bcdDigits])).toNat = b.toNat / 100 ∧
      ((bcdDigits b)[1]'(by simp [bcdDigits])).toNat = b.toNat / 10 % 10 := by
  have hb := b.isLt
  exact ⟨Nat.mod_eq_of_lt (by omega), Nat.mod_eq_of_lt (by omega)⟩

/-- The byte at a position of the stored registers is that register's (R204). -/
theorem State.regBytes_getElem {s : State} {x : Reg} {k : Nat} (hk : k < (s.regBytes x).length) :
    (s.regBytes x)[k] = s.getV (BitVec.ofNat 4 k) := by
  simp [State.regBytes]

/-- Settles O36: each fault is raised after what is left of the store. The third digit has no address in memory, since the
fault means that I + 2 has none. -/
theorem faultedStoresKeepEverythingOutsideTheirWriteSet :
    Obligations.FaultedStoresKeepEverythingOutsideTheirWriteSet := by
  unfold Obligations.FaultedStoresKeepEverythingOutsideTheirWriteSet
  intro x s hm
  refine ⟨fun h => ⟨_, exec_ldBVx_fault x h, rfl, fun a => ?_⟩, fun h => ⟨_, exec_ldMemVx_fault x h, rfl, fun a => ?_⟩⟩
  · refine (read_writeSome_cases _ hm _ _ a).imp_right ?_
    rintro ⟨k, hk, ha, hmem, hread⟩
    obtain ⟨hhundreds, htens⟩ := bcdDigits_hundreds_tens (s.getV x)
    refine ⟨hmem, ?_⟩
    match k with
    | 0 => exact .inl ⟨ha, (congrArg BitVec.toNat hread).trans hhundreds⟩
    | 1 => exact .inr ⟨ha, (congrArg BitVec.toNat hread).trans htens⟩
    | k + 2 => omega
  · refine (read_writeSome_cases _ hm _ _ a).imp_right ?_
    rintro ⟨k, hk, ha, hmem, hread⟩
    have hkx : k ≤ x.toNat := Nat.le_of_lt_succ (hk.trans_eq (s.regBytes_length x))
    have hreg : (BitVec.ofNat 4 k).toNat = k := Nat.mod_eq_of_lt (hkx.trans_lt x.isLt)
    exact ⟨BitVec.ofNat 4 k, by rwa [hreg], by rwa [hreg], hmem, hread.trans (State.regBytes_getElem hk)⟩

/-! ### Block loads that fault -/

/-- A register after a block load that faulted is old, or counted, with its byte in range, and loaded (R269). -/
theorem State.getV_loadSomeRegs_cases (s : State) {n : Nat} (hn : n ≤ 16) (r : Reg) :
    (s.loadSomeRegs n).getV r = s.getV r ∨
      (r.toNat < n ∧ s.i.toNat + r.toNat ≤ 0xFFF ∧ (s.loadSomeRegs n).getV r = s.mem.read (s.i.toNat + r.toNat)) := by
  have hcount : inRangeCount s.i.toNat n ≤ n := Nat.min_le_left _ _
  rw [State.getV_loadSomeRegs, State.getV_loadRegs s r _ (hcount.trans hn)]
  split
  next => exact .inl rfl
  next =>
    split
    next hr =>
      obtain ⟨hrn, hmem⟩ := lt_inRangeCount_iff.1 hr
      exact .inr ⟨hrn, hmem, rfl⟩
    next => exact .inl rfl

/-- Settles O37: the fault is raised after what is left of the load, and it writes no register. -/
theorem faultedLoadKeepsEverythingOutsideItsWriteSet : Obligations.FaultedLoadKeepsEverythingOutsideItsWriteSet := by
  unfold Obligations.FaultedLoadKeepsEverythingOutsideItsWriteSet
  intro x s h
  have hx : x.toNat + 1 ≤ 16 := x.isLt
  refine ⟨_, exec_ldVxMem_fault x h, rfl, fun r => ?_⟩
  exact (s.getV_loadSomeRegs_cases hx r).imp_right (.imp_left Nat.le_of_lt_succ)

/-! ### The reset operation -/

/-- Settles O48: all but memory, the keys and the draws comes from the power-on state, whose registers, stack and display
are zero; the font is written as one block in range, which ends below 0x050. -/
theorem resetRestoresAllButMemoryAndKeys : Obligations.ResetRestoresAllButMemoryAndKeys := by
  unfold Obligations.ResetRestoresAllButMemoryAndKeys
  intro s hm
  have hfits : 0 + Config.font.length ≤ 4096 := by decide
  refine ⟨s.resetOp, rfl, fun r => ?_, rfl, rfl, rfl, fun j => ?_, rfl, rfl, pixel_blank, rfl, rfl, rfl, rfl,
    fun k hk => ?_, fun a ha => ?_, rfl⟩
  · simp [State.getV]
  · simp
  · rw [State.resetOp_mem, ← read_writeBytes_inside hm hfits hk, Nat.zero_add]
  · rw [State.resetOp_mem]
    exact read_writeBytes_outside hm hfits (.inr (by rwa [Nat.zero_add, font_length]))

end Sys2Proof.Machine
